-- ==== Sys2Proof/Word.lean ====
section
/-! DEFINITION. The widths the spec gives: a byte (rule R11) and the 16-bit unsigned quantity of a length
or a sample (rules R59, R80). Counts, table indices and reference durations are naturals (rule R11). -/

namespace Sys2Proof

/-- A `u8`: a byte of a stream, of the body buffer or of an event field (rule R11). -/
abbrev Byte := BitVec 8

/-- A `u16`: a frame length or a sample in microseconds (rules R11, R80). -/
abbrev Half := BitVec 16

end Sys2Proof
end

