-- ==== Sys2Proof/Config.lean ====
section
/-! DEFINITION. The configuration record `Cfg` of rule R8: what the host fixes before reset is released.
Well-formedness (rule R9) and the readers of the tables stand in `Machine/Operands.lean`. -/

namespace Sys2Proof

/-- `ODD_POLICY` of rule R8: what a `RECEIVED` frame with an odd trailing byte does (rule R150). -/
inductive OddPolicy where
  | reject
  | ignore
  deriving DecidableEq, Repr

/-- Index `k` of the three tables of rule R29 at once: `NAME(k)`, `CODE[k]` and `TRANS(k)`. One record per index
makes `NAME` total and `TRANS` partial on `0 .. N-1` by construction (DESIGN CHOICE, notes/assumptions/2.md). -/
structure TableEntry where
  /-- `NAME(k)`, an opaque label the datapath never reads (rules R8, R29). -/
  name : String
  /-- `CODE[k]`: the reference durations in microseconds (rule R8); at most 65535 each by rule R9(a). -/
  reference : List Nat
  /-- `TRANS(k)`: absent, or the target index (rules R8, R29). -/
  target : Option Nat
  deriving DecidableEq, Repr

/-- The configuration record of rule R8. `N`, `LEN` and `DELAY_TICKS` are computed from it. -/
structure Cfg where
  /-- `CODE`, `TRANS` and `NAME`, in table order; table order is significant (rules R29, R167). -/
  table : List TableEntry
  /-- `TOLERANCE`, microseconds (rules R8, R169). -/
  tolerance : Nat
  /-- `TX_REPEAT` (rules R8, R134). -/
  txRepeat : Byte
  /-- `CLK_HZ`, left OPEN by rule R8. -/
  clkHz : Nat
  /-- `BODY_MAX`: the capacity of the body buffer in bytes (rule R8). -/
  bodyMax : Nat
  /-- `REF_W`: the width of a stored reference duration (rule R8). -/
  refW : Nat
  /-- `ODD_POLICY` (rules R8, R150). -/
  oddPolicy : OddPolicy
  deriving DecidableEq, Repr

/-- `DELAY` of rule R8 in seconds: hardwired by rule R10, and no condition of rule R9 speaks of it, so it is a named
constant and not a field. -/
def Cfg.delaySeconds : Nat := 1

/-- The synthetic configuration `T7` of 95_test_vectors.md section 1, with the values rule R8 gives "for this hardware"
(`TOLERANCE`, `TX_REPEAT`, `BODY_MAX`, `REF_W`, `ODD_POLICY`) and the `DELAY_TICKS = 3` of vector V-RSP-7.
The spec leaves the tables and `CLK_HZ` OPEN, so that the model starts with this configuration is a
DESIGN CHOICE (notes/assumptions/1.md). -/
def Cfg.t7 : Cfg where
  table :=
    [ ⟨"a0", [9000, 4500, 560, 560, 560, 1690, 560], some 6⟩,
      ⟨"a1", [9000, 4500, 560, 1690, 560, 560, 560], none⟩,
      ⟨"a2", [9050, 4500, 560, 560, 560, 1690, 560], none⟩,
      ⟨"b3", [2400, 600, 1200, 600], some 1⟩,
      ⟨"c4", [500], none⟩,
      ⟨"d5", [65535, 0], none⟩,
      ⟨"e6", [3400, 1700, 420, 420, 420, 1270], none⟩ ]
  tolerance := 100
  txRepeat := 20
  clkHz := 3
  bodyMax := 65535
  refW := 16
  oddPolicy := .reject

end Sys2Proof
end

