-- ==== Sys2Proof/Syntax.lean ====
section
/-! DEFINITION. The instruction set: a received frame's body, decoded. One constructor of `Instr` for each row of
spec/opcode_table.json (rules R3, R82, R96), each with every operand form the length can give it (rules R84, R89, R90). -/

namespace Sys2Proof

/-- The payload forms of type 0 (format `M` of rule R84, and rule R89 for the short ones). -/
inductive MessageForm where
  /-- `L ≥ 3`: sub-type, code and the trailing bytes (rule R146). -/
  | full (subtype code : Byte) (extra : List Byte)
  /-- `L < 3`: no payload byte, or one that is reported raw (rule R147). -/
  | short (only : Option Byte)
  deriving DecidableEq, Repr

/-- The payload forms of type 1 (format `S` of rule R84, and rules R89, R90). -/
inductive ReceivedForm where
  /-- `L = 1`: the repeat byte is missing (rule R149). -/
  | empty
  /-- `L ≥ 2` and `L - 2` even: the repeat byte and whole samples (rule R148). -/
  | whole (rep : Byte) (samples : List Half)
  /-- `L ≥ 3` and `L - 2` odd: one trailing byte belongs to no sample (rule R150). -/
  | odd (rep : Byte) (samples : List Half) (trailing : Byte)
  deriving DecidableEq, Repr

/-- A decoded frame body. The unknown types 4 to 255 are six rows, one for each position of the highest set bit (rule R96):
the constructor fixes that bit and those above it, and `low` holds the bits below it. -/
inductive Instr where
  /-- Type 0 (rules R146, R147). -/
  | message (form : MessageForm)
  /-- Type 1 (rules R148 to R150). -/
  | received (form : ReceivedForm)
  /-- Type 2, received: the payload is not decoded (rules R91, R151). -/
  | sendRequest (payload : List Byte)
  /-- Type 3: the payload is not interpreted (rules R91, R152). -/
  | sendResponse (payload : List Byte)
  /-- Types 128 to 255 (rule R153). -/
  | unknown80 (low : BitVec 7) (payload : List Byte)
  /-- Types 64 to 127 (rule R153). -/
  | unknown40 (low : BitVec 6) (payload : List Byte)
  /-- Types 32 to 63 (rule R153). -/
  | unknown20 (low : BitVec 5) (payload : List Byte)
  /-- Types 16 to 31 (rule R153). -/
  | unknown10 (low : BitVec 4) (payload : List Byte)
  /-- Types 8 to 15 (rule R153). -/
  | unknown08 (low : BitVec 3) (payload : List Byte)
  /-- Types 4 to 7 (rule R153). -/
  | unknown04 (low : BitVec 2) (payload : List Byte)
  deriving DecidableEq, Repr

end Sys2Proof
end

