-- ==== Sys2Proof/WellFormed.lean ====
section
/-! DEFINITION. Which instructions a frame can carry: the length field is 16 bits and counts the type byte,
so a payload has at most 65534 bytes (rules R80, R81, R87; the numbers after rule R10). -/

namespace Sys2Proof

/-- The largest payload a frame can carry. -/
def maxPayload : Nat := 65534

/-- A `MESSAGE` payload fits: two bytes and at most 65532 more (rule R146, corner cases). -/
def MessageForm.wf : MessageForm → Bool
  | .full _ _ extra => decide (2 + extra.length ≤ maxPayload)
  | .short _ => true

/-- A `RECEIVED` payload fits: at most 32766 samples, with or without the trailing byte (rule R148, corner cases). -/
def ReceivedForm.wf : ReceivedForm → Bool
  | .empty => true
  | .whole _ samples => decide (1 + 2 * samples.length ≤ maxPayload)
  | .odd _ samples _ => decide (2 + 2 * samples.length ≤ maxPayload)

/-- The instruction is one that some frame carries. -/
def Instr.wf : Instr → Bool
  | .message form => form.wf
  | .received form => form.wf
  | .sendRequest payload => decide (payload.length ≤ maxPayload)
  | .sendResponse payload => decide (payload.length ≤ maxPayload)
  | .unknown80 _ payload => decide (payload.length ≤ maxPayload)
  | .unknown40 _ payload => decide (payload.length ≤ maxPayload)
  | .unknown20 _ payload => decide (payload.length ≤ maxPayload)
  | .unknown10 _ payload => decide (payload.length ≤ maxPayload)
  | .unknown08 _ payload => decide (payload.length ≤ maxPayload)
  | .unknown04 _ payload => decide (payload.length ≤ maxPayload)

end Sys2Proof
end

