-- ==== Sys2Proof/Decode.lean ====
section
/-! DEFINITION. From bytes to an instruction and back: the byte order (rules R59, R85, R86), the type map of
spec/opcode_table.json (rule R96), the payload formats (rule R84), the decoder, and the encoder of rule R130. -/

namespace Sys2Proof

/-- `LE16(lo, hi)` of rule R12: the low byte comes first (rule R59). -/
def le16 (lo hi : Byte) : Half := BitVec.ofNat 16 (lo.toNat + 256 * hi.toNat)

/-- `lo8(v)` of rule R12, on the natural `v`. -/
def lo8 (v : Nat) : Byte := BitVec.ofNat 8 (v % 256)

/-- `hi8(v)` of rule R12, on a natural `v ≤ 65535`. -/
def hi8 (v : Nat) : Byte := BitVec.ofNat 8 (v / 256)

/-- The bytes of a sequence of 16-bit durations, each low byte first (rule R86). -/
def sampleBytes (durations : List Nat) : List Byte := durations.flatMap fun v => [lo8 v, hi8 v]

/-- The bytes after the repeat byte, taken in pairs: the whole samples, and the byte left over if their number is odd
(rules R84, R85, R90). -/
def pairSamples : List Byte → List Half × Option Byte
  | [] => ([], none)
  | [trailing] => ([], some trailing)
  | lo :: hi :: rest => (le16 lo hi :: (pairSamples rest).1, (pairSamples rest).2)

/-- The rows of spec/opcode_table.json. -/
inductive Row where
  | message | received | sendRequest | sendResponse
  | unknown80 | unknown40 | unknown20 | unknown10 | unknown08 | unknown04
  deriving DecidableEq, Repr

/-- A row's pattern: a frame is of the row's type when `type AND mask = value` (rule R96). -/
structure TypePattern where
  row : Row
  mask : Byte
  value : Byte
  deriving DecidableEq, Repr

/-- The type map, row by row (rule R96, spec/opcode_table.json). -/
def typePatterns : List TypePattern :=
  [ ⟨.message, 0xFF, 0x00⟩,
    ⟨.received, 0xFF, 0x01⟩,
    ⟨.sendRequest, 0xFF, 0x02⟩,
    ⟨.sendResponse, 0xFF, 0x03⟩,
    ⟨.unknown80, 0x80, 0x80⟩,
    ⟨.unknown40, 0xC0, 0x40⟩,
    ⟨.unknown20, 0xE0, 0x20⟩,
    ⟨.unknown10, 0xF0, 0x10⟩,
    ⟨.unknown08, 0xF8, 0x08⟩,
    ⟨.unknown04, 0xFC, 0x04⟩ ]

/-- A type byte is of the pattern's row (rule R96). -/
def TypePattern.covers (p : TypePattern) (type : Byte) : Bool := type &&& p.mask == p.value

/-- The row of a type byte: the first pattern that covers it. The patterns are disjoint and cover every byte
(rule R96), so the order does not matter and there always is one. -/
def rowOf (type : Byte) : Option Row := (typePatterns.find? (·.covers type)).map (·.row)

/-- The form of a type-0 payload (rule R84, format `M`). -/
def messageForm : List Byte → MessageForm
  | [] => .short none
  | [only] => .short (some only)
  | subtype :: code :: extra => .full subtype code extra

/-- The form of a type-1 payload (rule R84, format `S`, and rule R90). -/
def receivedForm : List Byte → ReceivedForm
  | [] => .empty
  | rep :: rest =>
    match pairSamples rest with
    | (samples, none) => .whole rep samples
    | (samples, some trailing) => .odd rep samples trailing

/-- Why bytes are no instruction. -/
inductive DecodeError where
  /-- A body with no byte has no type (rule R88). -/
  | noType
  /-- A body of more than 65535 bytes, which no length field declares (rule R80). -/
  | bodyTooLong
  /-- A type byte of no row: there is none (rule R96). -/
  | noRow
  /-- Fewer than the two bytes of a length (rule R113). -/
  | partialLength
  /-- The length field is zero (rule R88). -/
  | zeroLength
  /-- Fewer body bytes than the length declares (rule R94). -/
  | shortBody
  deriving DecidableEq, Repr

/-- The instruction of a type row, its type byte and its payload (rule R84). -/
def Row.instr (row : Row) (type : Byte) (payload : List Byte) : Instr :=
  match row with
  | .message => .message (messageForm payload)
  | .received => .received (receivedForm payload)
  | .sendRequest => .sendRequest payload
  | .sendResponse => .sendResponse payload
  | .unknown80 => .unknown80 (type.setWidth 7) payload
  | .unknown40 => .unknown40 (type.setWidth 6) payload
  | .unknown20 => .unknown20 (type.setWidth 5) payload
  | .unknown10 => .unknown10 (type.setWidth 4) payload
  | .unknown08 => .unknown08 (type.setWidth 3) payload
  | .unknown04 => .unknown04 (type.setWidth 2) payload

/-- The instruction in a complete body: its type byte selects the row, the rest is the payload (rules R80, R145). -/
def decodeBody : List Byte → Except DecodeError Instr
  | [] => .error .noType
  | type :: payload =>
    if payload.length ≤ maxPayload then
      match rowOf type with
      | some row => .ok (row.instr type payload)
      | none => .error .noRow
    else .error .bodyTooLong

/-- The first frame of a byte string and the bytes after it: two length bytes, then as many body bytes as they
declare (rules R80, R83, R85). -/
def decodeFrame : List Byte → Except DecodeError (Instr × List Byte)
  | lo :: hi :: rest =>
    let length := (le16 lo hi).toNat
    if length = 0 then .error .zeroLength
    else if rest.length < length then .error .shortBody
    else
      match decodeBody (rest.take length) with
      | .ok i => .ok (i, rest.drop length)
      | .error e => .error e
  | _ => .error .partialLength

/-- The payload bytes of a type-0 form (rules R84, R147). -/
def MessageForm.payload : MessageForm → List Byte
  | .full subtype code extra => subtype :: code :: extra
  | .short only => only.toList

/-- The payload bytes of a type-1 form (rules R84, R86, R90). -/
def ReceivedForm.payload : ReceivedForm → List Byte
  | .empty => []
  | .whole rep samples => rep :: sampleBytes (samples.map (·.toNat))
  | .odd rep samples trailing => rep :: (sampleBytes (samples.map (·.toNat)) ++ [trailing])

/-- The row of an instruction. -/
def Instr.row : Instr → Row
  | .message _ => .message
  | .received _ => .received
  | .sendRequest _ => .sendRequest
  | .sendResponse _ => .sendResponse
  | .unknown80 _ _ => .unknown80
  | .unknown40 _ _ => .unknown40
  | .unknown20 _ _ => .unknown20
  | .unknown10 _ _ => .unknown10
  | .unknown08 _ _ => .unknown08
  | .unknown04 _ _ => .unknown04

/-- The type byte of an instruction (rules R82, R96): for an unknown type the fixed high bits, then `low`. -/
def Instr.typeByte : Instr → Byte
  | .message _ => 0
  | .received _ => 1
  | .sendRequest _ => 2
  | .sendResponse _ => 3
  | .unknown80 low _ => 1#1 ++ low
  | .unknown40 low _ => 1#2 ++ low
  | .unknown20 low _ => 1#3 ++ low
  | .unknown10 low _ => 1#4 ++ low
  | .unknown08 low _ => 1#5 ++ low
  | .unknown04 low _ => 1#6 ++ low

/-- The payload bytes of an instruction (rule R84). -/
def Instr.payload : Instr → List Byte
  | .message form => form.payload
  | .received form => form.payload
  | .sendRequest payload => payload
  | .sendResponse payload => payload
  | .unknown80 _ payload => payload
  | .unknown40 _ payload => payload
  | .unknown20 _ payload => payload
  | .unknown10 _ payload => payload
  | .unknown08 _ payload => payload
  | .unknown04 _ payload => payload

/-- The body of an instruction's frame: the type byte, then the payload (rule R80). -/
def encodeBody (i : Instr) : List Byte := i.typeByte :: i.payload

/-- Why a payload has no frame. -/
inductive EncodeError where
  /-- More than 65534 payload bytes: the length does not fit its field (rules R87, R130). -/
  | payloadTooLong
  deriving DecidableEq, Repr

/-- `Encode(T, P)` of rule R130: the length low byte first, the type, the payload verbatim; refused beyond 65534 bytes
(rule R87). -/
def encodeFrame (type : Byte) (payload : List Byte) : Except EncodeError (List Byte) :=
  if payload.length ≤ maxPayload then
    .ok (lo8 (1 + payload.length) :: hi8 (1 + payload.length) :: type :: payload)
  else .error .payloadTooLong

/-- The frame of an instruction on the wire (rules R86, R130). -/
def encode (i : Instr) : Except EncodeError (List Byte) := encodeFrame i.typeByte i.payload

/-- The bytes of `nbits` bits `w`, the lowest eight bits first (bit 0 of spec/opcode_table.json is the lowest bit of the
type byte, body index 0: rule R96). -/
def tableBytes (nbits w : Nat) : List Byte :=
  (List.range (nbits / 8)).map fun k => BitVec.ofNat 8 (w / 256 ^ k)

/-- The fewest body bytes that give every field of the type's payload format a byte: `L ≥ 3` for format `M`, `L ≥ 2` for format
`S` of a received signal, `L ≥ 1` otherwise (rules R84, R91). -/
def leastBody (bytes : List Byte) : Nat :=
  match bytes.head?.bind rowOf with
  | some .message => 3
  | some .received => 2
  | _ => 1

/-- The body that the bits `w` of a table row stand for: the bits the row has, and zero bytes for the operands. -/
def tableBody (nbits w : Nat) : List Byte :=
  let bytes := tableBytes nbits w
  bytes ++ List.replicate (leastBody bytes - bytes.length) 0

/-- The instruction the decoder reads from a table row's bits. -/
def decodeTableWord (nbits w : Nat) : Option Instr := (decodeBody (tableBody nbits w)).toOption

end Sys2Proof
end

