-- ==== Sys2Proof/Machine/State.lean ====
section
/-! DEFINITION. The state of the framer-classifier (rules R20 to R23, R27), its two output logs (rule R21), the event port of one
cycle (rule R56), and the environment's inputs as plain data (rules R20, R32, R50): what the transport holds and what each
coming clock cycle brings. With the reasons a step can stop, and the state after reset (rule R33). -/

namespace Sys2Proof.Machine

open Sys2Proof

/-- The sequencer register `phase` (rule R23). -/
inductive Phase where
  | rxLen0
  | rxLen1
  | rxBody
  | dispatch
  | delay
  | tx
  | halt
  deriving DecidableEq, Repr

/-- An event record (rule R196). -/
inductive Event where
  /-- `EV_MESSAGE`, code 0. -/
  | message (subtype code : Byte) (extra : List Byte)
  /-- `EV_MATCH`, code 1. -/
  | matched (index : Nat)
  /-- `EV_TRANSLATE`, code 2. -/
  | translate (index target : Nat)
  /-- `EV_NO_MATCH`, code 3. -/
  | noMatch (rep : Byte) (count : Nat) (samples : List Half)
  /-- `EV_UNKNOWN_TYPE`, code 4. -/
  | unknownType (type : Byte) (payload : List Byte)
  /-- `EV_MALFORMED`, code 5. -/
  | malformed (type : Byte) (payload : List Byte)
  deriving DecidableEq, Repr

/-- A step of the transition system (rule R13). -/
inductive Action where
  /-- The transport delivers a byte and the block accepts it. -/
  | rxByte (b : Byte)
  /-- The transport reports that the outstanding read ended short. -/
  | rxTimeout
  /-- The transport reports a failure. -/
  | fail
  /-- One tick of the delay time base. -/
  | tick
  /-- The transport accepts one byte from the block. -/
  | txByte
  /-- The internal step that decodes, classifies and responds. -/
  | dispatch
  /-- The internal step that ends the delay. -/
  | delayDone
  deriving DecidableEq, Repr

/-- A ghost label: a name on a transition that appears on no port (rules R12, R25, R218). -/
inductive GhostLabel where
  | idleTimeout
  | dropEmpty
  | dropPartialLength
  | dropShort
  | dropOversize
  | halt
  deriving DecidableEq, Repr

/-- What the environment does in one clock cycle: the input ports of rule R50. `rx_valid` and `rx_data` come from the bytes
the transport holds (rule R52), to which the bytes that arrive in this cycle are added. -/
structure CycleInput where
  /-- `rst` (rule R230). -/
  rst : Bool := false
  /-- Bytes that reach the transport's receive buffer in this cycle, oldest first (rule R32(a)). -/
  arrive : List Byte := []
  /-- `rx_timeout` (rule R53). -/
  rxTimeout : Bool := false
  /-- `xport_fail` (rule R54). -/
  xportFail : Bool := false
  /-- `tx_ready` (rule R55). -/
  txReady : Bool := false
  /-- The implementation spends this cycle in `DISPATCH` without finishing (rules R51, R250). -/
  dispatchBusy : Bool := false
  deriving DecidableEq, Repr

/-- The body buffer: the bytes written so far, by index (rules R30, R31). Canonical form: indices strictly rising; an
unlisted index holds no value (`Memory.unlisted`). -/
abbrev Memory := List Host.Cell

/-- Why the machine stops. Every one is raised only in states that rule R34 says no run reaches. -/
inductive Fault where
  /-- `Dispatch` with `rx_len = 0`: there is no type byte to read (rule R34(c)). Raised by `fetch`. Safe: the machine stops where
  the spec has no such state. -/
  | emptyBody
  /-- A read of a body byte that nothing has written (rule R31 lets the model fault). Raised by `fetch`. Safe. -/
  | bodyUnwritten (index : Nat)
  /-- A read of the body buffer at or above `BODY_MAX`, where it has no byte (rule R30). Raised by `fetch`. Safe. -/
  | bodyOutOfRange (index : Nat)
  /-- Body bytes that are no instruction: none exist (rules R34(c), R96). Raised by `fetch`. Safe. -/
  | undecodable (reason : DecodeError)
  /-- `TX` with a target that is no index of the code table (rule R34(d)). Raised by `txByte`. Safe. -/
  | txTargetAbsent (target : Nat)
  /-- `TX` with an index at or past the end of the frame (rule R34(e)). Raised by `txByte`. Safe. -/
  | txIndexPastFrame (index : Nat)
  deriving DecidableEq, Repr

/-- Why the machine gives no meaning. -/
inductive Refusal where
  /-- An instruction that has no meaning yet, rejected by name in `exec`. Safe. -/
  | notModelled (mnemonic : String)
  /-- The configuration is not well-formed: "a model refuses an ill-formed `Cfg`" (rules R9, R234). Raised by `step`. Safe. -/
  | illFormedCfg
  /-- `Encode` of a payload of more than 65534 bytes: "a model's `Encode` refuses it" (rule R87). Raised by `txByte`, in states that
  rule R34(d) says no run reaches. Safe. -/
  | payloadTooLong
  deriving DecidableEq, Repr

/-- The machine. The first nine fields after `cfg` are the tuple `S` of rule R20. -/
structure State where
  /-- `Cfg`, supplied by the host and never changed while the block runs (rules R8, R231). -/
  cfg : Cfg
  /-- The sequencer, the block's program counter (rule R23). -/
  phase : Phase
  /-- The low byte of the length being received, 8 bits (rule R22). -/
  lenLo : Byte
  /-- The declared length of the frame being received or dispatched, 16 bits (rule R22). -/
  rxLen : BitVec 16
  /-- The number of body bytes accepted so far, 16 bits (rule R22). -/
  rxCnt : BitVec 16
  /-- The body buffer (rules R30, R31). -/
  body : Memory
  /-- The table index being retransmitted, `IDX_W` bits (rule R22); the width depends on `N`, so it is a natural
  and `Inv` bounds it. -/
  txTarget : Nat
  /-- The index of the next byte of the outgoing frame, 17 bits (rule R22). -/
  txIdx : BitVec 17
  /-- The ticks of the delay still to elapse, "enough bits for `DELAY_TICKS`" (rule R22); a natural that `Inv` bounds. -/
  delayCnt : Nat
  /-- The one flag (rule R27). -/
  fault : Bool
  /-- `tx_log`: every byte sent since reset, oldest first (rule R21). -/
  txLog : List Byte
  /-- `ev_log`: every event emitted since reset, oldest first (rule R21). -/
  evLog : List Event
  /-- The event port in the cycle just taken: `ev_valid` and the record (rules R50, R56). -/
  evPort : Option Event
  /-- The bytes the transport holds and offers on the RX port, oldest first (rules R32(a), R52). -/
  rxHeld : List Byte
  /-- What the coming clock cycles bring, the next first; after the last, nothing comes (rule R20: inputs of the step relation,
  held here as plain data). -/
  inputs : List CycleInput
  deriving DecidableEq, Repr

/-- The reset values of rule R33 under the configuration `cfg`, with the transport holding nothing and nothing to come. Every byte of
`body` is unspecified: none is listed. -/
def State.resetWith (cfg : Cfg) : State where
  cfg := cfg
  phase := .rxLen0
  lenLo := 0
  rxLen := 0
  rxCnt := 0
  body := []
  txTarget := 0
  txIdx := 0
  delayCnt := 0
  fault := false
  txLog := []
  evLog := []
  evPort := none
  rxHeld := []
  inputs := []

/-- The machine right after reset (rule R33). "`Cfg` is whatever the host supplied": the model's is the spec's synthetic `T7`
(DESIGN CHOICE, notes/assumptions/1.md), and no statement rests on it. -/
def State.reset : State := State.resetWith Cfg.t7

end Sys2Proof.Machine
end

