-- ==== Sys2Proof/Machine/Ops.lean ====
section
/-! DEFINITION. The named operations over the body buffer and the registers, the taking of the one fatal exception (rule R200)
and the one way out of it (rule R230). Every meaning is written from these. -/

namespace Sys2Proof.Machine

open Sys2Proof

/-- What an index of the body buffer that nothing has written holds: no value (rule R31; DESIGN CHOICE,
notes/assumptions/3.md). -/
def Memory.unlisted : Option Byte := none

/-- The byte the buffer holds at an index. -/
def Memory.read : Memory → Nat → Option Byte
  | [], _ => Memory.unlisted
  | (at', b) :: rest, index => if index = at' then some b else Memory.read rest index

/-- `body[index] <- b` (rule R12), keeping the indices strictly rising. -/
def Memory.write : Memory → Nat → Byte → Memory
  | [], index, b => [(index, b)]
  | (at', old) :: rest, index, b =>
    if index < at' then (index, b) :: (at', old) :: rest
    else if index = at' then (index, b) :: rest
    else (at', old) :: Memory.write rest index b

/-- Consecutive bytes written from an index up. -/
def Memory.writeAll : Memory → Nat → List Byte → Memory
  | m, _, [] => m
  | m, index, b :: rest => Memory.writeAll (m.write index b) (index + 1) rest

/-- The canonical form: indices strictly rising, so none is listed twice. -/
abbrev Memory.wf (m : Memory) : Prop := (m.map Prod.fst).Pairwise (· < ·)

/-- `body[index]`: the buffer has the indices `0 .. BODY_MAX-1` and no other (rule R30); an unwritten byte has no value (rule R31). -/
def State.readBody (s : State) (index : Nat) : Except Fault Byte :=
  if index < s.cfg.bodyMax then
    match s.body.read index with
    | some b => .ok b
    | none => .error (.bodyUnwritten index)
  else .error (.bodyOutOfRange index)

/-- `phase <- p` (rule R12). -/
def State.setPhase (s : State) (p : Phase) : State := { s with phase := p }

/-- `emit e` (rules R12, R56): appended to `ev_log` and presented once on the event port. -/
def State.emit (s : State) (e : Event) : State := { s with evLog := s.evLog ++ [e], evPort := some e }

/-- `len_lo <- b` (rule R110). -/
def State.setLenLo (s : State) (b : Byte) : State := { s with lenLo := b }

/-- `rx_len <- L; rx_cnt <- 0` (rule R112). -/
def State.setLength (s : State) (length : Half) : State := { s with rxLen := length, rxCnt := 0 }

/-- `if rx_cnt < BODY_MAX then body[rx_cnt] <- b; rx_cnt <- rx_cnt + 1` (rule R114). -/
def State.storeBody (s : State) (b : Byte) : State :=
  { s with
    body := if s.rxCnt.toNat < s.cfg.bodyMax then s.body.write s.rxCnt.toNat b else s.body
    rxCnt := s.rxCnt + 1 }

/-- `tx_target <- j; delay_cnt <- ticks; phase <- DELAY` (rule R183). -/
def State.arm (s : State) (target ticks : Nat) : State :=
  { s with txTarget := target, delayCnt := ticks, phase := .delay }

/-- `delay_cnt <- delay_cnt - 1` (rule R184). -/
def State.countTick (s : State) : State := { s with delayCnt := s.delayCnt - 1 }

/-- `tx_idx <- 0; phase <- TX` (rule R185). -/
def State.startTx (s : State) : State := { s with txIdx := 0, phase := .tx }

/-- `send b; tx_idx <- tx_idx + 1` (rules R12, R135). -/
def State.send (s : State) (b : Byte) : State := { s with txLog := s.txLog ++ [b], txIdx := s.txIdx + 1 }

/-- Taking the one exception, `raise TransportFailure` (rules R12, R200): `fault <- 1; phase <- HALT`, nothing saved, nothing else
changed, no event (rule R212). -/
def State.raiseTransportFailure (s : State) : State := { s with fault := true, phase := .halt }

/-- One cycle with `rst = 1`, the only way out of `HALT` (rules R230, R231): the reset values, the configuration kept, the logs
empty again. The transport and what is to come are not the block's and stay. -/
def State.resetBlock (s : State) : State :=
  { State.resetWith s.cfg with rxHeld := s.rxHeld, inputs := s.inputs }

end Sys2Proof.Machine
end

