-- ==== Sys2Proof/Machine/Operands.lean ====
section
/-! DEFINITION. The configuration tables as operands (rules R8, R29): `N`, `CODE`, `LEN`, `TRANS`, `NAME`, `DELAY_TICKS`, `IDX_W`, and the
well-formedness of `Cfg` (rule R9). -/

namespace Sys2Proof

/-- `N`: the number of reference signals (rule R8). -/
def Cfg.size (c : Cfg) : Nat := c.table.length

/-- `CODE[k]`, for `0 ≤ k < N` (rule R29). -/
def Cfg.code (c : Cfg) (k : Nat) : Option (List Nat) := c.table[k]?.map (·.reference)

/-- `LEN(k)`, for `0 ≤ k < N` (rules R8, R29). -/
def Cfg.len (c : Cfg) (k : Nat) : Option Nat := (c.code k).map List.length

/-- `TRANS(k)`: `none` where `k` is not in the domain (rules R8, R29). -/
def Cfg.trans (c : Cfg) (k : Nat) : Option Nat := c.table[k]?.bind (·.target)

/-- `j` is in the range of `TRANS` (rules R9, R34(d)). -/
def Cfg.isTarget (c : Cfg) (j : Nat) : Prop := ∃ k, c.trans k = some j

/-- `NAME(k)` (rules R8, R29), read by an observer only. -/
def Cfg.name (c : Cfg) (k : Nat) : Option String := c.table[k]?.map (·.name)

/-- `DELAY_TICKS = CLK_HZ × 1 s` (rules R8, R57). -/
def Cfg.delayTicks (c : Cfg) : Nat := c.clkHz * Cfg.delaySeconds

/-- `IDX_W = max(1, ceil(log2 N))` (rule R22). -/
def Cfg.idxW (c : Cfg) : Nat := if c.size ≤ 2 then 1 else Nat.log2 (c.size - 1) + 1

/-- Rule R9(a): every duration is in `0..65535`. -/
def Cfg.durationsFit (c : Cfg) : Bool := c.table.all fun e => e.reference.all fun v => decide (v ≤ 65535)

/-- Rule R9(b) and (c) for one index: the target is an index of the table, and its frame's length fits the length field. -/
def Cfg.targetFits (c : Cfg) (e : TableEntry) : Bool :=
  match e.target with
  | none => true
  | some j =>
    match c.len j with
    | none => false
    | some n => decide (n ≤ 32766)

/-- Rule R9(b) and (c): every target is an index of the table, and its frame's length fits the length field. -/
def Cfg.targetsFit (c : Cfg) : Bool := c.table.all c.targetFits

/-- Rule R9(d). -/
def Cfg.bodyMaxFits (c : Cfg) : Bool := decide (1 ≤ c.bodyMax) && decide (c.bodyMax ≤ 65535)

/-- Rule R9(e). -/
def Cfg.constantsFixed (c : Cfg) : Bool :=
  decide (c.tolerance = 100) && decide (c.txRepeat = 20) && decide (c.refW = 16)

/-- Rule R9: the conditions under which the block is specified. -/
def Cfg.wf (c : Cfg) : Bool := c.durationsFit && c.targetsFit && c.bodyMaxFits && c.constantsFixed

end Sys2Proof
end

