-- ==== Sys2Proof/Machine/FramerTx.lean ====
section
/-! DEFINITION. The transmit half of the Framer (41_framer_tx.md): the one frame the block sends, and the step that sends a byte of it. -/

namespace Sys2Proof.Machine

open Sys2Proof

/-- Why `TX` has no byte to send. -/
inductive TxError where
  /-- The target is no index of the code table. -/
  | noTarget
  /-- The frame cannot be encoded (rule R87). -/
  | tooLong
  deriving DecidableEq, Repr

/-- `TXFRAME(j)`: a `SEND_REQUEST` with the fixed repeat count and the reference durations of code `j` (rule R134). -/
def txFrame (c : Cfg) (target : Nat) : Except TxError (List Byte) :=
  match c.code target with
  | none => .error .noTarget
  | some durations =>
    match encodeFrame 2 (c.txRepeat :: sampleBytes durations) with
    | .ok frame => .ok frame
    | .error .payloadTooLong => .error .tooLong

/-- The byte at `tx_idx` sent; after the last one the write is complete (rule R135). -/
def sendFrom (frame : List Byte) (s : State) : Host.Outcome State Fault Refusal :=
  match frame[s.txIdx.toNat]? with
  | none => .fault (.txIndexPastFrame s.txIdx.toNat)
  | some b => .next (if s.txIdx.toNat + 1 = frame.length then (s.send b).setPhase .rxLen0 else s.send b)

/-- The step `TxByte` (rules R24, R135). -/
def txByte (s : State) : Host.Outcome State Fault Refusal :=
  match s.phase with
  | .tx =>
    match txFrame s.cfg s.txTarget with
    | .ok frame => sendFrom frame s
    | .error .noTarget => .fault (.txTargetAbsent s.txTarget)
    | .error .tooLong => .refused .payloadTooLong
  | .rxLen0 | .rxLen1 | .rxBody | .dispatch | .delay | .halt => .next s

end Sys2Proof.Machine
end

