-- ==== Sys2Proof/Machine/Flags.lean ====
section
/-! DEFINITION. What the outside can read: the flag and the output ports, each a function of the state (rules R27, R50, R58), the event
codes (rule R196), and the matched name an observer looks up (rules R29, R181). -/

namespace Sys2Proof.Machine

open Sys2Proof

/-- `rx_ready`: 1 exactly in the three RX phases (rules R50, R52). -/
def State.rxReady (s : State) : Bool :=
  match s.phase with
  | .rxLen0 | .rxLen1 | .rxBody => true
  | .dispatch | .delay | .tx | .halt => false

/-- `tx_valid`: 1 exactly when `phase = TX` (rules R50, R55). -/
def State.txValid (s : State) : Bool :=
  match s.phase with
  | .tx => true
  | .rxLen0 | .rxLen1 | .rxBody | .dispatch | .delay | .halt => false

/-- `tx_data`, the offered byte `TXFRAME(tx_target)[tx_idx]` (rules R50, R55); none when no byte is offered. -/
def State.txData (s : State) : Option Byte :=
  if s.txValid then
    match txFrame s.cfg s.txTarget with
    | .ok frame => frame[s.txIdx.toNat]?
    | .error _ => none
  else none

/-- `ev_valid` in the cycle just taken (rules R50, R56). -/
def State.evValid (s : State) : Bool := s.evPort.isSome

/-- The kind code of an event (rule R196). -/
def Event.kind : Event → BitVec 3
  | .message _ _ _ => 0
  | .matched _ => 1
  | .translate _ _ => 2
  | .noMatch _ _ _ => 3
  | .unknownType _ _ => 4
  | .malformed _ _ => 5

/-- `ev_kind` in the cycle just taken (rule R50); none when `ev_valid = 0`. -/
def State.evKind (s : State) : Option (BitVec 3) := s.evPort.map Event.kind

/-- The status output `fault` (rules R27, R58). -/
def State.faultOut (s : State) : Bool := s.fault

/-- The status output `phase` (rules R23, R58). -/
def State.phaseOut (s : State) : Phase := s.phase

/-- The matched name an observer gets from an event's index through the name map (rules R29, R181). -/
def Event.matchedName (c : Cfg) : Event → Option String
  | .matched k => c.name k
  | .translate k _ => c.name k
  | .message _ _ _ | .noMatch _ _ _ | .unknownType _ _ | .malformed _ _ => none

end Sys2Proof.Machine
end

