-- ==== Sys2Proof/Machine/FramerRx.lean ====
section
/-! DEFINITION. The receive half of the Framer (40_framer_rx.md): what an accepted byte and a short-read indication do in the three RX
phases. In every other phase neither is accepted and nothing changes (rule R24). -/

namespace Sys2Proof.Machine

open Sys2Proof

/-- `RX_LEN0`, `RxByte(b)`: the low byte of a length (rule R110). -/
def rxLen0Byte (b : Byte) (s : State) : State := (s.setLenLo b).setPhase .rxLen1

/-- `RX_LEN1`, `RxByte(b)`: the high byte of the length; a zero length is dropped (rules R88, R112). -/
def rxLen1Byte (b : Byte) (s : State) : State :=
  let length := le16 s.lenLo b
  (s.setLength length).setPhase (if length = 0 then .rxLen0 else .rxBody)

/-- `RX_BODY`, `RxByte(b)`: body byte number `rx_cnt`; the last one completes the frame, or drops it when it is longer than the
buffer (rules R114, R116). -/
def rxBodyByte (b : Byte) (s : State) : State :=
  if s.rxCnt.toNat + 1 = s.rxLen.toNat then
    (s.storeBody b).setPhase (if s.rxLen.toNat ≤ s.cfg.bodyMax then .dispatch else .rxLen0)
  else s.storeBody b

/-- The step `RxByte(b)` (rules R24, R110, R112, R114). -/
def rxByte (b : Byte) (s : State) : State :=
  match s.phase with
  | .rxLen0 => rxLen0Byte b s
  | .rxLen1 => rxLen1Byte b s
  | .rxBody => rxBodyByte b s
  | .dispatch | .delay | .tx | .halt => s

/-- The step `RxTimeout` (rules R24, R111, R113, R115): every RX phase returns to `RX_LEN0` and keeps its registers. -/
def rxTimeout (s : State) : State :=
  match s.phase with
  | .rxLen0 => s
  | .rxLen1 => s.setPhase .rxLen0
  | .rxBody => s.setPhase .rxLen0
  | .dispatch | .delay | .tx | .halt => s

end Sys2Proof.Machine
end

