-- ==== Sys2Proof/Machine/Cycle.lean ====
section
/-! DEFINITION. Which steps each phase enables (rule R24), which one a clock cycle takes (rules R51, R210), and the ghost label of a
step (rule R25). -/

namespace Sys2Proof.Machine

open Sys2Proof

/-- The steps each phase enables (rule R24). -/
def enabled (a : Action) (s : State) : Bool :=
  match s.phase, a with
  | .rxLen0, .rxByte _ | .rxLen0, .rxTimeout | .rxLen0, .fail => true
  | .rxLen1, .rxByte _ | .rxLen1, .rxTimeout | .rxLen1, .fail => true
  | .rxBody, .rxByte _ | .rxBody, .rxTimeout | .rxBody, .fail => true
  | .dispatch, .dispatch => true
  | .delay, .tick => decide (0 < s.delayCnt)
  | .delay, .delayDone => decide (s.delayCnt = 0)
  | .tx, .txByte | .tx, .fail => true
  | _, _ => false

/-- The step `Fail`, sampled in the I/O phases only (rules R24, R54, R200, R204). -/
def failStep (s : State) : State :=
  match s.phase with
  | .rxLen0 | .rxLen1 | .rxBody | .tx => s.raiseTransportFailure
  | .dispatch | .delay | .halt => s

/-- The ghost label of a step in a state, where the transition table gives it one (rule R25). -/
def ghostLabel (a : Action) (s : State) : Option GhostLabel :=
  match s.phase, a with
  | .rxLen0, .rxTimeout => some .idleTimeout
  | .rxLen1, .rxTimeout => some .dropPartialLength
  | .rxBody, .rxTimeout => some .dropShort
  | .rxLen1, .rxByte b => if le16 s.lenLo b = 0 then some .dropEmpty else none
  | .rxBody, .rxByte _ =>
    if s.rxCnt.toNat + 1 = s.rxLen.toNat ∧ s.cfg.bodyMax < s.rxLen.toNat then some .dropOversize else none
  | .rxLen0, .fail | .rxLen1, .fail | .rxBody, .fail | .tx, .fail => some .halt
  | _, _ => none

/-- What the coming cycle brings; after the last input, nothing (rule R219: the block waits as long as it takes). -/
def State.cycleInput (s : State) : CycleInput := s.inputs.headD {}

/-- The start of a clock cycle: its input is taken, the bytes that arrive join those the transport holds (rule R32(a)), and the event
port is clear unless this cycle emits (rule R56). -/
def State.beginCycle (s : State) : State :=
  { s with
    inputs := s.inputs.tail
    rxHeld := s.rxHeld ++ s.cycleInput.arrive
    evPort := none }

/-- What happens in a clock cycle. -/
inductive CycleEvent where
  /-- `rst = 1`: no step of rule R13 happens (rule R230). -/
  | reset
  /-- `rst = 0` and no step (rule R51, last row). -/
  | idle
  /-- The one step of this cycle. -/
  | act (a : Action)
  deriving DecidableEq, Repr

/-- A cycle of an RX phase: `xport_fail` over an offered byte over `rx_timeout` (rules R51, R210). -/
def chooseRx (c : CycleInput) (s : State) : CycleEvent :=
  if c.xportFail then .act .fail
  else
    match s.rxHeld with
    | b :: _ => .act (.rxByte b)
    | [] => if c.rxTimeout then .act .rxTimeout else .idle

/-- The step of a cycle with `rst = 0` (rule R51). -/
def chooseStep (c : CycleInput) (s : State) : CycleEvent :=
  match s.phase with
  | .rxLen0 | .rxLen1 | .rxBody => chooseRx c s
  | .dispatch => if c.dispatchBusy then .idle else .act .dispatch
  | .delay => if s.delayCnt = 0 then .act .delayDone else .act .tick
  | .tx => if c.xportFail then .act .fail else if c.txReady then .act .txByte else .idle
  | .halt => .idle

/-- What the cycle with input `c` does in the state `s` at its start (rules R51, R210, R230). -/
def choose (c : CycleInput) (s : State) : CycleEvent := if c.rst then .reset else chooseStep c s

/-- An accepted byte leaves the transport: it is accepted exactly once (rules R52, R63). -/
def consume (a : Action) (s : State) : State :=
  match a with
  | .rxByte _ => { s with rxHeld := s.rxHeld.tail }
  | .rxTimeout | .fail | .tick | .txByte | .dispatch | .delayDone => s

end Sys2Proof.Machine
end

