-- ==== Sys2Proof/Machine/Classifier.lean ====
section
/-! DEFINITION. The Classifier (43_classifier.md): a pure function of the samples and the code table. -/

namespace Sys2Proof.Machine

open Sys2Proof

/-- `absdiff(a, b)` of rule R12, on naturals: it never wraps (rule R168). -/
def absdiff (a b : Nat) : Nat := if b ≤ a then a - b else b - a

/-- One reference against the samples: equal length, and every position within the tolerance, inclusive (rules R166, R169, R170). -/
def matchesRef (tolerance : Nat) : List Nat → List Half → Bool
  | [], [] => true
  | v :: reference, x :: samples => decide (absdiff v x.toNat ≤ tolerance) && matchesRef tolerance reference samples
  | [], _ :: _ => false
  | _ :: _, [] => false

/-- `Match(k, s)` (rule R166). -/
def isMatch (c : Cfg) (k : Nat) (samples : List Half) : Bool :=
  match c.code k with
  | some reference => matchesRef c.tolerance reference samples
  | none => false

/-- The first index, counted from `k`, whose reference matches (rule R165). -/
def firstMatch (tolerance : Nat) (samples : List Half) : Nat → List TableEntry → Option Nat
  | _, [] => none
  | k, e :: rest =>
    if matchesRef tolerance e.reference samples then some k else firstMatch tolerance samples (k + 1) rest

/-- `Classify(s)`: the least matching index in table order, or `NO_MATCH` (rules R165, R167). -/
def classify (c : Cfg) (samples : List Half) : Option Nat := firstMatch c.tolerance samples 0 c.table

end Sys2Proof.Machine
end

