-- ==== Sys2Proof/Machine/Responder.lean ====
section
/-! DEFINITION. The Responder (44_responder.md): the three outcomes of a classification, and the delay before a retransmission. -/

namespace Sys2Proof.Machine

open Sys2Proof

/-- `Respond(r, repeat, samples)`: no match, a match without a translation, a translation (rules R180 to R183). -/
def respond (result : Option Nat) (rep : Byte) (samples : List Half) (s : State) : State :=
  match result with
  | none => (s.emit (.noMatch rep samples.length samples)).setPhase .rxLen0
  | some k =>
    match s.cfg.trans k with
    | none => (s.emit (.matched k)).setPhase .rxLen0
    | some j => (s.emit (.translate k j)).arm j s.cfg.delayTicks

/-- The step `Tick`, enabled in `DELAY` while ticks are left (rules R24, R184). -/
def tick (s : State) : State :=
  match s.phase with
  | .delay => if 0 < s.delayCnt then s.countTick else s
  | .rxLen0 | .rxLen1 | .rxBody | .dispatch | .tx | .halt => s

/-- The step `DelayDone`, enabled in `DELAY` when no tick is left (rules R24, R185). -/
def delayDone (s : State) : State :=
  match s.phase with
  | .delay => if s.delayCnt = 0 then s.startTx else s
  | .rxLen0 | .rxLen1 | .rxBody | .dispatch | .tx | .halt => s

end Sys2Proof.Machine
end

