-- ==== Sys2Proof/Machine/Dispatcher.lean ====
section
/-! DEFINITION. The Dispatcher (42_dispatcher.md): the meaning of each row of spec/opcode_table.json, the effect of the atomic step
`Dispatch` on a frame of that row (rule R145). -/

namespace Sys2Proof.Machine

open Sys2Proof

/-- The step answers this state. -/
abbrev Result := Host.Outcome State Fault Refusal

/-- A diagnostic, or any other frame that is reported and done with: one event, then `phase <- RX_LEN0` (rule R212). -/
def report (e : Event) (s : State) : Result := .next ((s.emit e).setPhase .rxLen0)

/-- A frame that is consumed without any effect: `phase <- RX_LEN0` (rules R91, R151, R152). -/
def ignoreFrame (s : State) : Result := .next (s.setPhase .rxLen0)

/-- A frame of an unknown type, with its whole type byte and its raw payload (rule R153). -/
def reportUnknown (type : Byte) (payload : List Byte) (s : State) : Result :=
  report (.unknownType type payload) s

/-- Classify the samples and respond (rule R148). -/
def classifyAndRespond (rep : Byte) (samples : List Half) (s : State) : Result :=
  .next (respond (classify s.cfg samples) rep samples s)

/-- `MESSAGE` (rules R146, R147). -/
def execMessage (form : MessageForm) (s : State) : Result :=
  match form with
  | .full subtype code extra => report (.message subtype code extra) s
  | .short only => report (.malformed 0 (MessageForm.short only).payload) s

/-- `RECEIVED` (rules R148, R149, R150). -/
def execReceived (form : ReceivedForm) (s : State) : Result :=
  match form with
  | .empty => report (.malformed 1 []) s
  | .whole rep samples => classifyAndRespond rep samples s
  | .odd rep samples trailing =>
    match s.cfg.oddPolicy with
    | .reject => report (.malformed 1 (ReceivedForm.odd rep samples trailing).payload) s
    | .ignore => classifyAndRespond rep samples s

/-- `SEND_REQUEST`, received: a no-op for every payload (rules R91, R151). -/
def execSendRequest (_payload : List Byte) (s : State) : Result := ignoreFrame s

/-- `SEND_RESPONSE`: a no-op for every payload (rules R91, R152). -/
def execSendResponse (_payload : List Byte) (s : State) : Result := ignoreFrame s

/-- `UNKNOWN_80`, types 128 to 255 (rule R153). -/
def execUnknown80 (low : BitVec 7) (payload : List Byte) (s : State) : Result := reportUnknown (1#1 ++ low) payload s

/-- `UNKNOWN_40`, types 64 to 127 (rule R153). -/
def execUnknown40 (low : BitVec 6) (payload : List Byte) (s : State) : Result := reportUnknown (1#2 ++ low) payload s

/-- `UNKNOWN_20`, types 32 to 63 (rule R153). -/
def execUnknown20 (low : BitVec 5) (payload : List Byte) (s : State) : Result := reportUnknown (1#3 ++ low) payload s

/-- `UNKNOWN_10`, types 16 to 31 (rule R153). -/
def execUnknown10 (low : BitVec 4) (payload : List Byte) (s : State) : Result := reportUnknown (1#4 ++ low) payload s

/-- `UNKNOWN_08`, types 8 to 15 (rule R153). -/
def execUnknown08 (low : BitVec 3) (payload : List Byte) (s : State) : Result := reportUnknown (1#5 ++ low) payload s

/-- `UNKNOWN_04`, types 4 to 7 (rule R153). -/
def execUnknown04 (low : BitVec 2) (payload : List Byte) (s : State) : Result := reportUnknown (1#6 ++ low) payload s

end Sys2Proof.Machine
end

