-- ==== Sys2Proof/Machine/Dispatch.lean ====
section
/-! DEFINITION. One arm per row of spec/opcode_table.json (rule R145). -/

namespace Sys2Proof.Machine

open Sys2Proof

def exec (i : Instr) (s : State) : Host.Outcome State Fault Refusal :=
  match i with
  | .message form => Sys2Proof.Machine.execMessage form s
  | .received form => Sys2Proof.Machine.execReceived form s
  | .sendRequest payload => Sys2Proof.Machine.execSendRequest payload s
  | .sendResponse payload => Sys2Proof.Machine.execSendResponse payload s
  | .unknown80 low payload => Sys2Proof.Machine.execUnknown80 low payload s
  | .unknown40 low payload => Sys2Proof.Machine.execUnknown40 low payload s
  | .unknown20 low payload => Sys2Proof.Machine.execUnknown20 low payload s
  | .unknown10 low payload => Sys2Proof.Machine.execUnknown10 low payload s
  | .unknown08 low payload => Sys2Proof.Machine.execUnknown08 low payload s
  | .unknown04 low payload => Sys2Proof.Machine.execUnknown04 low payload s

end Sys2Proof.Machine
end

