-- ==== Sys2Proof/Machine/Fetch.lean ====
section
/-! DEFINITION. Reading the complete body out of the buffer and decoding it, the first half of the step `Dispatch` (rule R145). -/

namespace Sys2Proof.Machine

open Sys2Proof

/-- `body[index .. index + count - 1]`, in order; the first byte that cannot be read stops it. -/
def State.readRange (s : State) (index : Nat) : Nat → Except Fault (List Byte)
  | 0 => .ok []
  | count + 1 =>
    match s.readBody index with
    | .error f => .error f
    | .ok b =>
      match s.readRange (index + 1) count with
      | .error f => .error f
      | .ok rest => .ok (b :: rest)

/-- `body[0 .. rx_len - 1]`, the packet handed to the Dispatcher (rules R114, R145). -/
def State.packet (s : State) : Except Fault (List Byte) := s.readRange 0 s.rxLen.toNat

/-- The instruction in the buffer. No run reaches a fault here (rule R34(c)). -/
def fetch (s : State) : Except Fault Instr :=
  match s.packet with
  | .error f => .error f
  | .ok [] => .error .emptyBody
  | .ok (type :: payload) =>
    match decodeBody (type :: payload) with
    | .ok i => .ok i
    | .error e => .error (.undecodable e)

end Sys2Proof.Machine
end

