-- ==== Sys2Proof/Machine/Step.lean ====
section
/-! DEFINITION. One step of the transition system (rule R13), one clock cycle of the machine (rule R51), and the placing of a frame for
the host. -/

namespace Sys2Proof.Machine

open Sys2Proof

/-- The step `Dispatch`, enabled in `DISPATCH` only: read the body, decode it, execute it (rules R24, R145). -/
def dispatchStep (s : State) : Host.Outcome State Fault Refusal :=
  match s.phase with
  | .dispatch =>
    match fetch s with
    | .ok i => exec i s
    | .error f => .fault f
  | .rxLen0 | .rxLen1 | .rxBody | .delay | .tx | .halt => .next s

/-- One step of the transition system (rules R13, R25). A step the phase does not enable has no effect (rule R24). -/
def perform (a : Action) (s : State) : Host.Outcome State Fault Refusal :=
  match a with
  | .rxByte b => .next (rxByte b s)
  | .rxTimeout => .next (rxTimeout s)
  | .fail => .next (failStep s)
  | .tick => .next (tick s)
  | .txByte => txByte s
  | .dispatch => dispatchStep s
  | .delayDone => .next (delayDone s)

/-- One clock cycle (rules R51, R230): the reset, the one step the inputs select, or nothing. An ill-formed configuration is refused
(rules R9, R234). -/
def step (s : State) : Host.Outcome State Fault Refusal :=
  if s.cfg.wf then
    match choose s.cycleInput s.beginCycle with
    | .reset => .next s.beginCycle.resetBlock
    | .idle => .next s.beginCycle
    | .act a => perform a (consume a s.beginCycle)
  else .refused .illFormedCfg

/-- `s` with the body of a table row's bits complete in the buffer, so that the very next step is its `Dispatch`: the phase
and the registers are as rule R114 leaves them at the last body byte, and leading cycles that would reset the block or keep it
busy are dropped from the inputs (notes/assumptions/7.md). -/
def State.withFetchWord (s : State) (nbits w : Nat) : State :=
  let bytes := tableBody nbits w
  { s with
    phase := .dispatch
    rxLen := BitVec.ofNat 16 bytes.length
    rxCnt := BitVec.ofNat 16 bytes.length
    body := s.body.writeAll 0 bytes
    inputs := s.inputs.dropWhile fun c => c.rst || c.dispatchBusy }

end Sys2Proof.Machine
end

