-- ==== Sys2Proof/Safety.lean ====
section
/-! DEFINITION. The terms claims are stated in: what a cycle brings, what the buffer holds, the invariant of rule R34, the verdict on a
run (rule R253), the premises a claim may name (rule R255), and the inputs `readPacket` skips (rule R117). -/

namespace Sys2Proof.Machine

open Sys2Proof

/-- The cycle neither resets the block nor reports a transport failure. -/
abbrev Calm (s : State) : Prop := s.cycleInput.rst = false ∧ s.cycleInput.xportFail = false

/-- The transport offers `b` in the coming cycle and holds `rest` behind it: `rx_valid = 1`, `rx_data = b` (rule R52). -/
abbrev Offers (s : State) (b : Byte) (rest : List Byte) : Prop := s.beginCycle.rxHeld = b :: rest

/-- The transport offers no byte in the coming cycle: `rx_valid = 0`. -/
abbrev OffersNone (s : State) : Prop := s.beginCycle.rxHeld = []

/-- The declared length is that of `bytes`, the buffer has room for them, and it holds them from index 0 (rule R34(c)). -/
structure BodyHolds (s : State) (bytes : List Byte) : Prop where
  length : s.rxLen.toNat = bytes.length
  fits : bytes.length ≤ s.cfg.bodyMax
  holds : ∀ i (h : i < bytes.length), s.body.read i = some bytes[i]

/-- The coming cycle dispatches the body `bytes`: a well-formed configuration, no reset, and a complete body in `DISPATCH` that the
implementation finishes with in this cycle (rules R51, R145). -/
structure Dispatches (s : State) (bytes : List Byte) : Prop where
  cfgWf : s.cfg.wf = true
  noReset : s.cycleInput.rst = false
  notBusy : s.cycleInput.dispatchBusy = false
  inDispatch : s.phase = .dispatch
  body : BodyHolds s bytes

/-- The bytes of `TXFRAME(j)`, where it is defined (rule R134). -/
def txBytes (c : Cfg) (j : Nat) : List Byte :=
  match txFrame c j with
  | .ok frame => frame
  | .error _ => []

/-- The frames of some targets, one after the other (rule R70). -/
def framesOf (c : Cfg) (targets : List Nat) : List Byte := targets.flatMap (txBytes c)

/-- The targets of the `EV_TRANSLATE` events of a log, in order (rule R186). -/
def translations (log : List Event) : List Nat :=
  log.filterMap fun e =>
    match e with
    | .translate _ target => some target
    | .message _ _ _ | .matched _ | .noMatch _ _ _ | .unknownType _ _ | .malformed _ _ => none

/-- What has been sent against what has been reported (rules R34(g), R70, R186), by phase. While nothing is in progress every
translation has its whole frame; in `DELAY` the last one has none of it, in `TX` the first `tx_idx` bytes; a halt leaves either. -/
def SentMatches (s : State) : Prop :=
  match s.phase with
  | .rxLen0 | .rxLen1 | .rxBody | .dispatch => s.txLog = framesOf s.cfg (translations s.evLog)
  | .delay =>
    ∃ sent, translations s.evLog = sent ++ [s.txTarget] ∧ s.txLog = framesOf s.cfg sent
  | .tx =>
    ∃ sent, translations s.evLog = sent ++ [s.txTarget]
      ∧ s.txLog = framesOf s.cfg sent ++ (txBytes s.cfg s.txTarget).take s.txIdx.toNat
  | .halt =>
    s.txLog = framesOf s.cfg (translations s.evLog)
      ∨ ∃ sent, translations s.evLog = sent ++ [s.txTarget]
          ∧ s.txLog = framesOf s.cfg sent ++ (txBytes s.cfg s.txTarget).take s.txIdx.toNat
          ∧ s.txIdx.toNat < (txBytes s.cfg s.txTarget).length

/-- The invariant of every run from reset under a well-formed configuration: rule R34 (a) to (g), the canonical form and the size of the
body buffer (rule R30), the widths of rule R22, and the outputs of a halted block (rule R201). -/
structure Inv (s : State) : Prop where
  cfgWf : s.cfg.wf = true
  canonical : Memory.wf s.body
  inBuffer : ∀ cell ∈ s.body, cell.1 < s.cfg.bodyMax
  /-- R34(a). -/
  counted : s.rxCnt.toNat ≤ s.rxLen.toNat
  /-- R34(b), with the bytes accepted so far in the buffer. -/
  receiving : s.phase = .rxBody →
    s.rxCnt.toNat < s.rxLen.toNat ∧ ∀ i, i < s.rxCnt.toNat → i < s.cfg.bodyMax → (s.body.read i).isSome
  /-- R34(c). -/
  complete : s.phase = .dispatch →
    1 ≤ s.rxLen.toNat ∧ s.rxLen.toNat ≤ s.cfg.bodyMax ∧ s.rxCnt = s.rxLen
      ∧ ∀ i, i < s.rxLen.toNat → (s.body.read i).isSome
  /-- R34(d). -/
  armed : s.phase = .delay ∨ s.phase = .tx → s.cfg.isTarget s.txTarget
  /-- R34(e). -/
  sending : s.phase = .tx → s.txIdx.toNat < (txBytes s.cfg s.txTarget).length
  /-- R34(f). -/
  halted : s.fault = true ↔ s.phase = .halt
  /-- R34(g). -/
  sent : SentMatches s
  /-- Every target reported is in the range of `TRANS` (rules R34(d), R183). -/
  reported : ∀ j ∈ translations s.evLog, s.cfg.isTarget j
  /-- `IDX_W` bits hold `tx_target` (rule R22). -/
  targetWidth : s.txTarget < 2 ^ s.cfg.idxW
  /-- `delay_cnt` never exceeds what it is loaded with (rule R22). -/
  delayWidth : s.delayCnt ≤ s.cfg.delayTicks
  /-- A halted block presents no event (rule R201). -/
  haltQuiet : s.phase = .halt → s.evPort = none

/-- A state at reset, with any bytes in the transport and any inputs to come: the premise `AtReset` of rule R255. -/
def AtReset (s : State) : Prop :=
  s = { State.resetWith s.cfg with rxHeld := s.rxHeld, inputs := s.inputs }

/-- The premise `CfgWellFormed` of rule R255. -/
def CfgWellFormed (s : State) : Prop := s.cfg.wf = true

/-- The premise `NoFault` of rule R255. -/
def NoFault (s : State) : Prop := s.fault = false

/-- The states of the runs from reset under a well-formed configuration, whatever the environment does (the premises `CfgWellFormed`
and `AtReset` of rule R255, and no other). -/
def Reached (s : State) : Prop :=
  ∃ start n, CfgWellFormed start ∧ AtReset start ∧ Sys2Proof.core.run n start = .next s

/-- What the cycle after `i` others brings. -/
def State.inputAt (s : State) (i : Nat) : CycleInput := s.inputs.getD i {}

/-- The bytes that reach the transport in the next `n` cycles. -/
def State.arrivals (s : State) (n : Nat) : List Byte := (s.inputs.take n).flatMap (·.arrive)

/-- In the next `n` cycles there is neither a reset nor a transport failure (the premise `NoFailInput` of rule R255, and a
running block). -/
def QuietFor (n : Nat) (s : State) : Prop :=
  ∀ i, i < n → (s.inputAt i).rst = false ∧ (s.inputAt i).xportFail = false

/-- In each of the next `n` cycles the transport accepts a byte if one is offered: a schedule that the premise `FairTx` of rule
R255 allows, and the quickest: no cycle stalls. -/
def AcceptsFor (n : Nat) (s : State) : Prop := ∀ i, i < n → (s.inputAt i).txReady = true

/-- An environment without end: what each clock cycle brings, counted from 0. A premise quantifies over it; no state holds it
(notes/assumptions/18.md). -/
abbrev Schedule := Nat → CycleInput

/-- `s` with one coming cycle, `c`. -/
def State.given (s : State) (c : CycleInput) : State := { s with inputs := [c] }

/-- `n` clock cycles under a schedule, each given its input as it comes. -/
def runUnder (env : Schedule) : Nat → State → Host.Outcome State Fault Refusal
  | 0, s => .next s
  | n + 1, s =>
    match runUnder env n s with
    | .next t => step (t.given (env n))
    | .fault r => .fault r
    | .refused r => .refused r

/-- The bytes that reach the transport in the first `n` cycles of a schedule. -/
def arrivalsUnder (env : Schedule) (n : Nat) : List Byte := (List.range n).flatMap fun i => (env i).arrive

/-- The schedule brings no reset. -/
def NeverReset (env : Schedule) : Prop := ∀ i, (env i).rst = false

/-- The premise `NoFailInput` of rule R255. -/
def NoFailInput (env : Schedule) : Prop := ∀ i, (env i).xportFail = false

/-- The fairness assumption on `TxByte` (rule R136), the premise `FairTx` of rule R255: whenever the run is in `TX`, the transport
eventually accepts the offered byte or fails, after any number of cycles in which it does neither. The premise `FairTick`
needs no definition: every cycle of `DELAY` is a tick (rule R57). -/
def FairTx (env : Schedule) (s : State) : Prop :=
  ∀ i t, runUnder env i s = .next t → t.phase = .tx →
    ∃ j, i ≤ j ∧ ((env j).txReady = true ∨ (env j).xportFail = true)

/-- What is still to be sent of the retransmission in progress: all of its frame in `DELAY`, the bytes from `tx_idx` on in `TX`. -/
def State.unsent (s : State) : List Byte :=
  match s.phase with
  | .delay => txBytes s.cfg s.txTarget
  | .tx => (txBytes s.cfg s.txTarget).drop s.txIdx.toNat
  | .rxLen0 | .rxLen1 | .rxBody | .dispatch | .halt => []

/-- The verdict on a run whose input is finite (rule R253). -/
inductive RunVerdict where
  | running
  | complete
  | faulted
  | stuckWaiting
  deriving DecidableEq, Repr

/-- Rule R253: complete when the input is used up in `RX_LEN0`, stuck waiting when it is used up inside a length or a body, faulted in
`HALT`, and otherwise still running. -/
def State.verdict (s : State) : RunVerdict :=
  match s.phase with
  | .halt => .faulted
  | .rxLen0 => if s.inputs.isEmpty && s.rxHeld.isEmpty then .complete else .running
  | .rxLen1 | .rxBody => if s.inputs.isEmpty && s.rxHeld.isEmpty then .stuckWaiting else .running
  | .dispatch | .delay | .tx => .running

/-- A sequence of steps of the transition system, stopping where one stops. -/
def runActions : List Action → State → Host.Outcome State Fault Refusal
  | [], s => .next s
  | a :: rest, s =>
    match perform a s with
    | .next t => runActions rest t
    | .fault r => .fault r
    | .refused r => .refused r

/-- The steps that deliver bytes with no short read among them. -/
def deliver (bytes : List Byte) : List Action := bytes.map .rxByte

/-- A piece of input that `readPacket` skips (rule R117), and the oversize frame of rule R116. -/
inductive Skipped where
  /-- A short read while no frame has begun (rule R111). -/
  | idle
  /-- One length byte and a short read (rule R113). -/
  | partialLength (lo : Byte)
  /-- A zero length (rule R112). -/
  | zeroLength
  /-- A length, fewer body bytes than it declares, and a short read (rule R115). -/
  | cut (lo hi : Byte) (got : List Byte)
  /-- A length above `BODY_MAX` and as many body bytes as it declares (rule R116). -/
  | oversize (lo hi : Byte) (got : List Byte)

/-- The piece is of the kind its constructor says, for a buffer of `bodyMax` bytes. -/
def Skipped.fits (bodyMax : Nat) : Skipped → Prop
  | .idle | .partialLength _ | .zeroLength => True
  | .cut lo hi got => got.length < (le16 lo hi).toNat
  | .oversize lo hi got => got.length = (le16 lo hi).toNat ∧ bodyMax < got.length

/-- The steps of a skipped piece. -/
def Skipped.actions : Skipped → List Action
  | .idle => [.rxTimeout]
  | .partialLength lo => [.rxByte lo, .rxTimeout]
  | .zeroLength => deliver [0, 0]
  | .cut lo hi got => deliver (lo :: hi :: got) ++ [.rxTimeout]
  | .oversize lo hi got => deliver (lo :: hi :: got)

/-- The premises `StreamAligned` and `FramesWhole` of rule R255 for an input up to the end of a frame: pieces that are skipped, then the
frame of the packet `(type, payload)`. -/
def FrameAfter (bodyMax : Nat) (input : List Action) (type : Byte) (payload : List Byte) : Prop :=
  ∃ (skipped : List Skipped) (frame : List Byte),
    (∀ p ∈ skipped, p.fits bodyMax) ∧ encodeFrame type payload = .ok frame
      ∧ input = skipped.flatMap Skipped.actions ++ deliver frame

/-- The complete transition table of rule R25, a constructor for each row. `HALT` has no row. -/
inductive Transition : Action → State → State → Prop
  | len0Byte {s : State} (b : Byte) : s.phase = .rxLen0 →
      Transition (.rxByte b) s { s with lenLo := b, phase := .rxLen1 }
  | len0Timeout {s : State} : s.phase = .rxLen0 → Transition .rxTimeout s s
  | len1Byte {s : State} (b : Byte) : s.phase = .rxLen1 → le16 s.lenLo b ≠ 0 →
      Transition (.rxByte b) s { s with rxLen := le16 s.lenLo b, rxCnt := 0, phase := .rxBody }
  | len1Empty {s : State} (b : Byte) : s.phase = .rxLen1 → le16 s.lenLo b = 0 →
      Transition (.rxByte b) s { s with rxLen := 0, rxCnt := 0, phase := .rxLen0 }
  | len1Timeout {s : State} : s.phase = .rxLen1 → Transition .rxTimeout s { s with phase := .rxLen0 }
  | bodyByte {s : State} (b : Byte) : s.phase = .rxBody → s.rxCnt.toNat + 1 < s.rxLen.toNat →
      Transition (.rxByte b) s
        { s with
          body := if s.rxCnt.toNat < s.cfg.bodyMax then s.body.write s.rxCnt.toNat b else s.body
          rxCnt := s.rxCnt + 1 }
  | bodyLast {s : State} (b : Byte) : s.phase = .rxBody → s.rxCnt.toNat + 1 = s.rxLen.toNat →
      s.rxLen.toNat ≤ s.cfg.bodyMax →
      Transition (.rxByte b) s
        { s with body := s.body.write s.rxCnt.toNat b, rxCnt := s.rxCnt + 1, phase := .dispatch }
  | bodyOversize {s : State} (b : Byte) : s.phase = .rxBody → s.rxCnt.toNat + 1 = s.rxLen.toNat →
      s.cfg.bodyMax < s.rxLen.toNat →
      Transition (.rxByte b) s { s with rxCnt := s.rxCnt + 1, phase := .rxLen0 }
  | bodyTimeout {s : State} : s.phase = .rxBody → Transition .rxTimeout s { s with phase := .rxLen0 }
  | fail {s : State} : s.phase = .rxLen0 ∨ s.phase = .rxLen1 ∨ s.phase = .rxBody ∨ s.phase = .tx →
      Transition .fail s { s with fault := true, phase := .halt }
  | message {s : State} (subtype code : Byte) (extra : List Byte) : s.phase = .dispatch →
      BodyHolds s (0 :: subtype :: code :: extra) →
      Transition .dispatch s
        { s with
          evLog := s.evLog ++ [.message subtype code extra]
          evPort := some (.message subtype code extra)
          phase := .rxLen0 }
  | messageShort {s : State} (payload : List Byte) : s.phase = .dispatch → BodyHolds s (0 :: payload) →
      payload.length < 2 →
      Transition .dispatch s
        { s with
          evLog := s.evLog ++ [.malformed 0 payload]
          evPort := some (.malformed 0 payload)
          phase := .rxLen0 }
  | receivedEmpty {s : State} : s.phase = .dispatch → BodyHolds s [1] →
      Transition .dispatch s
        { s with
          evLog := s.evLog ++ [.malformed 1 []]
          evPort := some (.malformed 1 [])
          phase := .rxLen0 }
  | receivedOdd {s : State} (rep : Byte) (rest : List Byte) : s.phase = .dispatch → BodyHolds s (1 :: rep :: rest) →
      rest.length % 2 = 1 → s.cfg.oddPolicy = .reject →
      Transition .dispatch s
        { s with
          evLog := s.evLog ++ [.malformed 1 (rep :: rest)]
          evPort := some (.malformed 1 (rep :: rest))
          phase := .rxLen0 }
  | receivedNoMatch {s : State} (rep : Byte) (rest : List Byte) : s.phase = .dispatch →
      BodyHolds s (1 :: rep :: rest) → rest.length % 2 = 0 ∨ s.cfg.oddPolicy = .ignore →
      classify s.cfg (pairSamples rest).1 = none →
      Transition .dispatch s
        { s with
          evLog := s.evLog ++ [.noMatch rep (pairSamples rest).1.length (pairSamples rest).1]
          evPort := some (.noMatch rep (pairSamples rest).1.length (pairSamples rest).1)
          phase := .rxLen0 }
  | receivedMatch {s : State} (rep : Byte) (rest : List Byte) (k : Nat) : s.phase = .dispatch →
      BodyHolds s (1 :: rep :: rest) → rest.length % 2 = 0 ∨ s.cfg.oddPolicy = .ignore →
      classify s.cfg (pairSamples rest).1 = some k → s.cfg.trans k = none →
      Transition .dispatch s
        { s with evLog := s.evLog ++ [.matched k], evPort := some (.matched k), phase := .rxLen0 }
  | receivedTranslate {s : State} (rep : Byte) (rest : List Byte) (k j : Nat) : s.phase = .dispatch →
      BodyHolds s (1 :: rep :: rest) → rest.length % 2 = 0 ∨ s.cfg.oddPolicy = .ignore →
      classify s.cfg (pairSamples rest).1 = some k → s.cfg.trans k = some j →
      Transition .dispatch s
        { s with
          evLog := s.evLog ++ [.translate k j]
          evPort := some (.translate k j)
          txTarget := j
          delayCnt := s.cfg.delayTicks
          phase := .delay }
  | sendRequest {s : State} (payload : List Byte) : s.phase = .dispatch → BodyHolds s (2 :: payload) →
      Transition .dispatch s { s with phase := .rxLen0 }
  | sendResponse {s : State} (payload : List Byte) : s.phase = .dispatch → BodyHolds s (3 :: payload) →
      Transition .dispatch s { s with phase := .rxLen0 }
  | unknown {s : State} (type : Byte) (payload : List Byte) : s.phase = .dispatch →
      BodyHolds s (type :: payload) → 4 ≤ type.toNat →
      Transition .dispatch s
        { s with
          evLog := s.evLog ++ [.unknownType type payload]
          evPort := some (.unknownType type payload)
          phase := .rxLen0 }
  | tick {s : State} : s.phase = .delay → 0 < s.delayCnt →
      Transition .tick s { s with delayCnt := s.delayCnt - 1 }
  | delayDone {s : State} : s.phase = .delay → s.delayCnt = 0 →
      Transition .delayDone s { s with txIdx := 0, phase := .tx }
  | txByte {s : State} (frame : List Byte) (h : s.txIdx.toNat + 1 < frame.length) : s.phase = .tx →
      txFrame s.cfg s.txTarget = .ok frame →
      Transition .txByte s
        { s with txLog := s.txLog ++ [frame[s.txIdx.toNat]'(by omega)], txIdx := s.txIdx + 1 }
  | txLast {s : State} (frame : List Byte) (h : s.txIdx.toNat + 1 = frame.length) : s.phase = .tx →
      txFrame s.cfg s.txTarget = .ok frame →
      Transition .txByte s
        { s with
          txLog := s.txLog ++ [frame[s.txIdx.toNat]'(by omega)]
          txIdx := s.txIdx + 1
          phase := .rxLen0 }

end Sys2Proof.Machine
end

