-- ==== Sys2Proof/Certificates/Slice0/Obligations.lean ====
section
/-! DEFINITION. The statements for the provers, in the order of OBLIGATIONS.json: reset and configuration, the receive half, the transmit
half, the dispatcher with a completion for every instruction, the classifier, the responder, the inputs and the fatal case, the
encoding, and the invariant. `s.beginCycle` is the state once a clock cycle has taken its input: only the transport's bytes, the
inputs to come and the event port differ from `s`. Those three fields are the model's own form of the ports (notes/assumptions/4.md,
5.md, 17.md); the refusal of an ill-formed configuration by `step` is the model's form of rules R9 and R234 (10.md). -/

open Sys2Proof Sys2Proof.Machine

/-- R33, but for the body buffer, whose bytes the rule leaves unspecified: the model's reset state, and the reset state under any
configuration the host supplies. -/
def Obligations.ResetLeavesTheSpecValues : Prop :=
  (∀ s : State, (s = State.reset ∨ ∃ c, s = State.resetWith c) →
    s.phase = .rxLen0 ∧ s.lenLo.toNat = 0 ∧ s.rxLen.toNat = 0 ∧ s.rxCnt.toNat = 0 ∧ s.txTarget = 0 ∧ s.txIdx.toNat = 0
      ∧ s.delayCnt = 0 ∧ s.fault = false ∧ s.txLog = [] ∧ s.evLog = []
      ∧ s.txValid = false ∧ s.txData = none ∧ s.evValid = false)
  ∧ ∀ c : Cfg, (State.resetWith c).cfg = c

/-- R230 and R231: a cycle with `rst = 1` gives the reset state, whatever the phase and the other inputs, and keeps the configuration and
what the transport holds; and nothing else leaves `HALT`. -/
def Obligations.ResetCycleRestoresTheResetState : Prop :=
  (∀ s : State, s.cfg.wf = true → s.cycleInput.rst = true →
    step s = .next { State.resetWith s.cfg with rxHeld := s.beginCycle.rxHeld, inputs := s.inputs.tail })
  ∧ ∀ s t : State, step s = .next t → s.phase = .halt → t.phase ≠ .halt → s.cycleInput.rst = true

/-- R9 (a) to (e), and the refusal of every other configuration; that `step` refuses, and in every cycle, is the model's choice
(notes/assumptions/10.md). -/
def Obligations.WellFormedConfigurationIsRequired : Prop :=
  ∀ c : Cfg,
    (c.wf = true ↔
      (∀ k code, c.code k = some code → ∀ v ∈ code, v ≤ 65535)
        ∧ (∀ k j, c.trans k = some j → j < c.size)
        ∧ (∀ k j code, c.trans k = some j → c.code j = some code → code.length ≤ 32766)
        ∧ (1 ≤ c.bodyMax ∧ c.bodyMax ≤ 65535)
        ∧ (c.tolerance = 100 ∧ c.txRepeat.toNat = 20 ∧ c.refW = 16))
    ∧ ∀ s : State, s.cfg = c → c.wf = false → step s = .refused .illFormedCfg

/-- R8, R10, R29, R72, R231: nothing changes the configuration. -/
def Obligations.EveryStepKeepsTheConfiguration : Prop :=
  ∀ s t : State, step s = .next t → t.cfg = s.cfg

/-- R110. -/
def Obligations.LowLengthByteIsTaken : Prop :=
  ∀ (s : State) (b : Byte) (rest : List Byte),
    s.cfg.wf = true → Calm s → s.phase = .rxLen0 → Offers s b rest →
    step s = .next { s.beginCycle with rxHeld := rest, lenLo := b, phase := .rxLen1 }

/-- R111. -/
def Obligations.IdleTimeoutChangesNothing : Prop :=
  ∀ s : State, s.phase = .rxLen0 →
    perform .rxTimeout s = .next s ∧ ghostLabel .rxTimeout s = some .idleTimeout
      ∧ (s.cfg.wf = true → Calm s → OffersNone s → s.cycleInput.rxTimeout = true → step s = .next s.beginCycle)

/-- R112. -/
def Obligations.HighLengthByteStartsTheBody : Prop :=
  ∀ (s : State) (b : Byte) (rest : List Byte),
    s.cfg.wf = true → Calm s → s.phase = .rxLen1 → Offers s b rest →
    ∃ length : BitVec 16, length.toNat = s.lenLo.toNat + 256 * b.toNat
      ∧ (length.toNat ≠ 0 →
          step s = .next { s.beginCycle with rxHeld := rest, rxLen := length, rxCnt := 0, phase := .rxBody })
      ∧ (length.toNat = 0 →
          step s = .next { s.beginCycle with rxHeld := rest, rxLen := 0, rxCnt := 0, phase := .rxLen0 }
            ∧ ghostLabel (.rxByte b) s = some .dropEmpty)

/-- R113. -/
def Obligations.PartialLengthIsDropped : Prop :=
  ∀ s : State, s.cfg.wf = true → Calm s → s.phase = .rxLen1 → OffersNone s → s.cycleInput.rxTimeout = true →
    step s = .next { s.beginCycle with phase := .rxLen0 } ∧ ghostLabel .rxTimeout s = some .dropPartialLength

/-- R114, in the states of R34(b) (`rx_cnt < rx_len`): the byte is stored and counted; the last one completes the frame, and the packet
is then the bytes received, in order; the last one of an oversize frame drops it (R116). -/
def Obligations.BodyByteIsStoredAndCounted : Prop :=
  ∀ (s : State) (b : Byte) (rest : List Byte),
    s.cfg.wf = true → Calm s → s.phase = .rxBody → s.rxCnt.toNat < s.rxLen.toNat → Offers s b rest →
    step s = .next
        { s.beginCycle with
          rxHeld := rest
          body := if s.rxCnt.toNat < s.cfg.bodyMax then s.body.write s.rxCnt.toNat b else s.body
          rxCnt := s.rxCnt + 1
          phase :=
            if s.rxCnt.toNat + 1 = s.rxLen.toNat then
              (if s.rxLen.toNat ≤ s.cfg.bodyMax then .dispatch else .rxLen0)
            else .rxBody }
      ∧ (s.rxCnt + 1).toNat = s.rxCnt.toNat + 1
      ∧ ∀ got : List Byte, got.length = s.rxCnt.toNat → (∀ i (h : i < got.length), s.body.read i = some got[i]) →
          s.rxCnt.toNat + 1 = s.rxLen.toNat → s.rxLen.toNat ≤ s.cfg.bodyMax →
          ∃ t, step s = .next t ∧ t.packet = .ok (got ++ [b])

/-- R116, for a whole frame: every declared byte is consumed, none at or above `BODY_MAX` is stored, and the frame is dropped without
an event. -/
def Obligations.OversizeFrameIsConsumedAndDropped : Prop :=
  (∀ (s : State) (lo hi : Byte) (got : List Byte),
    s.phase = .rxLen0 → got.length = (le16 lo hi).toNat → s.cfg.bodyMax < got.length →
    ∃ t, runActions (deliver (lo :: hi :: got)) s = .next t
      ∧ t.phase = .rxLen0 ∧ t.rxLen.toNat = got.length ∧ t.rxCnt = t.rxLen
      ∧ t.evLog = s.evLog ∧ t.txLog = s.txLog ∧ t.fault = s.fault
      ∧ (∀ i, s.cfg.bodyMax ≤ i → t.body.read i = s.body.read i)
      ∧ ∀ i, i < s.cfg.bodyMax → t.body.read i = got[i]?)
  ∧ ∀ (s : State) (b : Byte), s.phase = .rxBody → s.rxCnt.toNat + 1 = s.rxLen.toNat →
      s.cfg.bodyMax < s.rxLen.toNat → ghostLabel (.rxByte b) s = some .dropOversize

/-- R115: dropped whatever `rx_cnt` is, silently, and nothing waits for the missing bytes. -/
def Obligations.ShortFrameIsDroppedSilently : Prop :=
  ∀ s : State, s.cfg.wf = true → Calm s → s.phase = .rxBody → OffersNone s → s.cycleInput.rxTimeout = true →
    step s = .next { s.beginCycle with phase := .rxLen0 } ∧ ghostLabel .rxTimeout s = some .dropShort

/-- R117: what `readPacket` skips leaves no trace but the registers; a whole frame after it is read; an input that ends inside a
length or a body leaves the block waiting. -/
def Obligations.SkippedInputThenFrameIsRead : Prop :=
  ∀ (s : State) (skipped : List Skipped), s.phase = .rxLen0 → (∀ p ∈ skipped, p.fits s.cfg.bodyMax) →
    ∃ u, runActions (skipped.flatMap Skipped.actions) s = .next u
      ∧ u.phase = .rxLen0 ∧ u.evLog = s.evLog ∧ u.txLog = s.txLog ∧ u.fault = s.fault
      ∧ (∀ (input : List Action) (type : Byte) (payload : List Byte), 1 + payload.length ≤ s.cfg.bodyMax →
          FrameAfter s.cfg.bodyMax input type payload →
          ∃ t, runActions input s = .next t ∧ t.phase = .dispatch ∧ t.packet = .ok (type :: payload)
            ∧ t.rxLen.toNat = 1 + payload.length ∧ t.evLog = s.evLog ∧ t.txLog = s.txLog ∧ t.fault = s.fault)
      ∧ (∀ lo, ∃ t, runActions (skipped.flatMap Skipped.actions ++ [.rxByte lo]) s = .next t ∧ t.phase = .rxLen1)
      ∧ ∀ (lo hi : Byte) (got : List Byte), got.length < (le16 lo hi).toNat →
          ∃ t, runActions (skipped.flatMap Skipped.actions ++ deliver (lo :: hi :: got)) s = .next t
            ∧ t.phase = .rxBody ∧ t.evLog = s.evLog

/-- R120, which the spec derives from R110, R112, R114 and R130, as steps and clock cycle by clock cycle: a frame whose bytes are
delivered with no short read among them reaches `DISPATCH` at its last byte; and so does one that the transport holds whole, whatever
arrives behind it and whether or not a timeout is pulsed beside an offered byte. -/
def Obligations.EncodedFrameIsReceivedWhole : Prop :=
  ∀ (s : State) (type : Byte) (payload frame : List Byte),
    s.phase = .rxLen0 → encodeFrame type payload = .ok frame → 1 + payload.length ≤ s.cfg.bodyMax →
    (∃ t, runActions (deliver frame) s = .next t
      ∧ t.phase = .dispatch ∧ t.rxLen.toNat = 1 + payload.length
      ∧ t.body.read 0 = some type ∧ ∀ i (h : i < payload.length), t.body.read (1 + i) = some payload[i])
    ∧ ∀ rest : List Byte, s.cfg.wf = true → s.rxHeld = frame ++ rest → QuietFor frame.length s →
      ∃ t, core.run frame.length s = .next t
        ∧ t.phase = .dispatch ∧ t.rxLen.toNat = 1 + payload.length ∧ t.packet = .ok (type :: payload)
        ∧ t.body.read 0 = some type ∧ (∀ i (h : i < payload.length), t.body.read (1 + i) = some payload[i])
        ∧ t.rxHeld = rest ++ s.arrivals frame.length
        ∧ t.evLog = s.evLog ∧ t.txLog = s.txLog ∧ t.fault = s.fault ∧ t.cfg = s.cfg

/-- R244, which the spec derives from R111, R113 and R115: from any RX phase, whatever the block believed it was reading. -/
def Obligations.SilenceRealignsTheReceiver : Prop :=
  ∀ s : State, s.phase = .rxLen0 ∨ s.phase = .rxLen1 ∨ s.phase = .rxBody →
    perform .rxTimeout s = .next { s with phase := .rxLen0 }
      ∧ ∀ (type : Byte) (payload frame : List Byte),
          encodeFrame type payload = .ok frame → 1 + payload.length ≤ s.cfg.bodyMax →
          ∃ t, runActions (.rxTimeout :: deliver frame) s = .next t
            ∧ t.phase = .dispatch ∧ t.packet = .ok (type :: payload) ∧ t.evLog = s.evLog ∧ t.txLog = s.txLog

/-- R31, R121: what the buffer holds beyond the declared length, left by the frames before, has no effect on the dispatch. -/
def Obligations.DispatchReadsOnlyTheDeclaredBody : Prop :=
  ∀ (s : State) (m : Memory), s.phase = .dispatch → s.cycleInput.rst = false →
    (∀ i, i < s.rxLen.toNat → m.read i = s.body.read i) →
    ∀ t, step s = .next t → step { s with body := m } = .next { t with body := m }

/-- R130. -/
def Obligations.EncodeGivesLengthTypePayload : Prop :=
  ∀ (type : Byte) (payload : List Byte),
    (payload.length ≤ 65534 → ∃ lo hi : Byte,
      lo.toNat = (1 + payload.length) % 256 ∧ hi.toNat = (1 + payload.length) / 256
        ∧ encodeFrame type payload = .ok ([lo, hi, type] ++ payload)
        ∧ ([lo, hi, type] ++ payload).length = payload.length + 3)
    ∧ (65534 < payload.length → encodeFrame type payload = .error .payloadTooLong)

/-- R134, every byte as a number, for every target of a well-formed configuration. -/
def Obligations.TransmittedFrameBytes : Prop :=
  ∀ (c : Cfg) (j : Nat), c.wf = true → c.isTarget j →
    ∃ (code : List Nat) (frame : List Byte),
      c.code j = some code ∧ txFrame c j = .ok frame ∧ frame.length = 4 + 2 * code.length
        ∧ frame.map (·.toNat) =
            [(2 + 2 * code.length) % 256, (2 + 2 * code.length) / 256, 2, 20] ++ code.flatMap fun v => [v % 256, v / 256]

/-- R135. -/
def Obligations.TxByteSendsTheNextByte : Prop :=
  ∀ (s : State) (frame : List Byte) (h : s.txIdx.toNat < frame.length),
    s.cfg.wf = true → Calm s → s.phase = .tx → s.cycleInput.txReady = true → txFrame s.cfg s.txTarget = .ok frame →
    step s = .next
        { s.beginCycle with
          txLog := s.txLog ++ [frame[s.txIdx.toNat]]
          txIdx := s.txIdx + 1
          phase := if s.txIdx.toNat + 1 = frame.length then .rxLen0 else .tx }
      ∧ (s.txIdx + 1).toNat = s.txIdx.toNat + 1

/-- R55, R136, R248: the offered byte stands until it is accepted, and the block does nothing else. -/
def Obligations.StalledTransmitHoldsTheByte : Prop :=
  ∀ s : State, s.cfg.wf = true → Calm s → s.phase = .tx → s.cycleInput.txReady = false →
    step s = .next s.beginCycle ∧ s.beginCycle.txValid = true ∧ s.beginCycle.txData = s.txData

/-- R136: under a transport that is fair, with any stalls, the write of the whole frame completes unless the transport fails (and then a
proper part of the rest has been sent); under one that neither accepts nor fails the block stays in `TX` for ever; and in both nothing
is read. The completion holds from `DELAY` too. The endless schedule is the form of the premise (notes/assumptions/18.md). -/
def Obligations.FairTransportCompletesTheWrite : Prop :=
  ∀ (s : State) (env : Schedule), Inv s → s.phase = .delay ∨ s.phase = .tx → NeverReset env →
    (FairTx env s → ∃ n t, runUnder env n s = .next t
      ∧ t.rxHeld = s.rxHeld ++ arrivalsUnder env n
      ∧ ((t.phase = .rxLen0 ∧ t.fault = false ∧ t.txLog = s.txLog ++ s.unsent)
        ∨ (t.phase = .halt ∧ t.fault = true
          ∧ ∃ k, k < s.unsent.length ∧ t.txLog = s.txLog ++ s.unsent.take k))
      ∧ (NoFailInput env → t.phase = .rxLen0))
    ∧ (s.phase = .tx → (∀ i, (env i).txReady = false ∧ (env i).xportFail = false) →
      ∀ n, ∃ t, runUnder env n s = .next t
        ∧ t.phase = .tx ∧ t.txIdx = s.txIdx ∧ t.txTarget = s.txTarget ∧ t.txLog = s.txLog
        ∧ t.rxHeld = s.rxHeld ++ arrivalsUnder env n)

/-- R51, R145: in `DISPATCH` a clock cycle that finishes is the meaning of the decoded instruction, at the state in which the cycle has
taken its input. -/
def Obligations.DispatchRunsTheDecodedInstruction : Prop :=
  ∀ (s : State) (bytes : List Byte) (i : Instr),
    s.cfg.wf = true → s.cycleInput.rst = false → s.cycleInput.dispatchBusy = false → s.phase = .dispatch →
    s.packet = .ok bytes → decodeBody bytes = .ok i → step s = exec i s.beginCycle

/-- R146. -/
def Obligations.MessageFrameIsReported : Prop :=
  ∀ (s : State) (subtype code : Byte) (extra : List Byte), Dispatches s (0 :: subtype :: code :: extra) →
    step s = .next
      { s.beginCycle with
        evLog := s.evLog ++ [.message subtype code extra]
        evPort := some (.message subtype code extra)
        phase := .rxLen0 }

/-- R147, R149. -/
def Obligations.TooShortPayloadIsMalformed : Prop :=
  (∀ (s : State) (payload : List Byte), Dispatches s (0 :: payload) → payload.length < 2 →
    step s = .next
      { s.beginCycle with
        evLog := s.evLog ++ [.malformed 0 payload], evPort := some (.malformed 0 payload), phase := .rxLen0 })
  ∧ ∀ s : State, Dispatches s [1] →
    step s = .next
      { s.beginCycle with
        evLog := s.evLog ++ [.malformed 1 []], evPort := some (.malformed 1 []), phase := .rxLen0 }

/-- R148: the samples are the byte pairs after the repeat byte, and they are classified and responded to. -/
def Obligations.ReceivedFrameIsClassified : Prop :=
  ∀ (s : State) (rep : Byte) (rest : List Byte), Dispatches s (1 :: rep :: rest) → rest.length % 2 = 0 →
    ∃ samples : List Half, samples.length = rest.length / 2
      ∧ (∀ q (h : 2 * q + 1 < rest.length),
          samples[q]?.map (·.toNat) = some (rest[2 * q].toNat + 256 * rest[2 * q + 1].toNat))
      ∧ step s = .next (respond (classify s.cfg samples) rep samples s.beginCycle)

/-- R150. -/
def Obligations.OddReceivedFollowsThePolicy : Prop :=
  ∀ (s : State) (rep : Byte) (rest : List Byte), Dispatches s (1 :: rep :: rest) → rest.length % 2 = 1 →
    (s.cfg.oddPolicy = .reject →
      step s = .next
        { s.beginCycle with
          evLog := s.evLog ++ [.malformed 1 (rep :: rest)]
          evPort := some (.malformed 1 (rep :: rest))
          phase := .rxLen0 })
    ∧ (s.cfg.oddPolicy = .ignore →
      ∃ samples : List Half, samples.length = rest.length / 2
        ∧ (∀ q (h : 2 * q + 1 < rest.length),
            samples[q]?.map (·.toNat) = some (rest[2 * q].toNat + 256 * rest[2 * q + 1].toNat))
        ∧ step s = .next (respond (classify s.cfg samples) rep samples s.beginCycle))

/-- R151, R152: no event, nothing sent, no register but `phase`, whatever the payload. -/
def Obligations.RequestAndResponseFramesAreIgnored : Prop :=
  ∀ (s : State) (payload : List Byte), Dispatches s (2 :: payload) ∨ Dispatches s (3 :: payload) →
    step s = .next { s.beginCycle with phase := .rxLen0 }

/-- R153, for each of the 252 types. -/
def Obligations.UnknownTypeIsReported : Prop :=
  ∀ (s : State) (type : Byte) (payload : List Byte), 4 ≤ type.toNat → Dispatches s (type :: payload) →
    step s = .next
      { s.beginCycle with
        evLog := s.evLog ++ [.unknownType type payload]
        evPort := some (.unknownType type payload)
        phase := .rxLen0 }

/-- `MESSAGE` (R146, R147) completes with its own effect on every operand, in every state. -/
def Obligations.MessageCompletes : Prop :=
  ∀ s : State,
    (∀ (subtype code : Byte) (extra : List Byte),
      exec (.message (.full subtype code extra)) s = .next
        { s with
          evLog := s.evLog ++ [.message subtype code extra]
          evPort := some (.message subtype code extra)
          phase := .rxLen0 })
    ∧ ∀ only : Option Byte,
      exec (.message (.short only)) s = .next
        { s with
          evLog := s.evLog ++ [.malformed 0 only.toList]
          evPort := some (.malformed 0 only.toList)
          phase := .rxLen0 }

/-- `RECEIVED` (R148 to R150, R180 to R183) completes with its own effect on every operand, in every state. -/
def Obligations.ReceivedCompletes : Prop :=
  ∀ s : State,
    exec (.received .empty) s = .next
      { s with evLog := s.evLog ++ [.malformed 1 []], evPort := some (.malformed 1 []), phase := .rxLen0 }
    ∧ (∀ (rep trailing : Byte) (samples : List Half), s.cfg.oddPolicy = .reject →
        ∃ payload, payload = rep :: (sampleBytes (samples.map (·.toNat)) ++ [trailing])
          ∧ exec (.received (.odd rep samples trailing)) s = .next
            { s with
              evLog := s.evLog ++ [.malformed 1 payload], evPort := some (.malformed 1 payload), phase := .rxLen0 })
    ∧ ∀ (rep : Byte) (samples : List Half) (form : ReceivedForm),
        form = .whole rep samples
          ∨ (s.cfg.oddPolicy = .ignore ∧ ∃ trailing, form = .odd rep samples trailing) →
        (classify s.cfg samples = none →
          exec (.received form) s = .next
            { s with
              evLog := s.evLog ++ [.noMatch rep samples.length samples]
              evPort := some (.noMatch rep samples.length samples)
              phase := .rxLen0 })
        ∧ (∀ k, classify s.cfg samples = some k → s.cfg.trans k = none →
          exec (.received form) s = .next
            { s with evLog := s.evLog ++ [.matched k], evPort := some (.matched k), phase := .rxLen0 })
        ∧ ∀ k j, classify s.cfg samples = some k → s.cfg.trans k = some j →
          exec (.received form) s = .next
            { s with
              evLog := s.evLog ++ [.translate k j]
              evPort := some (.translate k j)
              txTarget := j
              delayCnt := s.cfg.delayTicks
              phase := .delay }

/-- `SEND_REQUEST` and `SEND_RESPONSE`, received (R151, R152), complete with no effect but the phase, on every payload. -/
def Obligations.NoOpFramesComplete : Prop :=
  ∀ (s : State) (payload : List Byte),
    exec (.sendRequest payload) s = .next { s with phase := .rxLen0 }
      ∧ exec (.sendResponse payload) s = .next { s with phase := .rxLen0 }

/-- The six rows of the unknown types (R153) complete: the event carries the type number the row and its low bits stand for. -/
def Obligations.UnknownFramesComplete : Prop :=
  ∀ (s : State) (payload : List Byte) (i : Instr) (number : Nat),
    (∃ low : BitVec 7, i = .unknown80 low payload ∧ number = 128 + low.toNat)
      ∨ (∃ low : BitVec 6, i = .unknown40 low payload ∧ number = 64 + low.toNat)
      ∨ (∃ low : BitVec 5, i = .unknown20 low payload ∧ number = 32 + low.toNat)
      ∨ (∃ low : BitVec 4, i = .unknown10 low payload ∧ number = 16 + low.toNat)
      ∨ (∃ low : BitVec 3, i = .unknown08 low payload ∧ number = 8 + low.toNat)
      ∨ (∃ low : BitVec 2, i = .unknown04 low payload ∧ number = 4 + low.toNat) →
    ∃ type : Byte, type.toNat = number
      ∧ exec i s = .next
        { s with
          evLog := s.evLog ++ [.unknownType type payload]
          evPort := some (.unknownType type payload)
          phase := .rxLen0 }

/-- R67, R145: the frame of every instruction. Only `RECEIVED` may change `tx_target` and `delay_cnt`, and then with a translation; every
other register, the flag, the transmit log, the configuration, the transport and every byte of the buffer are as before. -/
def Obligations.DispatchFrame : Prop :=
  ∀ (i : Instr) (s t : State), exec i s = .next t →
    t.cfg = s.cfg ∧ t.lenLo = s.lenLo ∧ t.rxLen = s.rxLen ∧ t.rxCnt = s.rxCnt ∧ t.txIdx = s.txIdx ∧ t.fault = s.fault
      ∧ t.txLog = s.txLog ∧ t.rxHeld = s.rxHeld ∧ t.inputs = s.inputs
      ∧ (∀ index, t.body.read index = s.body.read index)
      ∧ (∃ news, t.evLog = s.evLog ++ news ∧ news.length ≤ 1)
      ∧ ((t.phase = .rxLen0 ∧ t.txTarget = s.txTarget ∧ t.delayCnt = s.delayCnt)
        ∨ (∃ form k, i = .received form ∧ t.phase = .delay ∧ s.cfg.trans k = some t.txTarget
            ∧ t.delayCnt = s.cfg.delayTicks ∧ t.evLog = s.evLog ++ [.translate k t.txTarget]))

/-- R154: no frame content can stop the loop, halt the block or set `fault`. -/
def Obligations.NoFrameContentStopsTheLoop : Prop :=
  ∀ (s : State) (bytes : List Byte), Dispatches s bytes → bytes ≠ [] →
    ∃ t, step s = .next t ∧ (t.phase = .rxLen0 ∨ t.phase = .delay) ∧ t.fault = s.fault

/-- R165: the least matching index, or none when no index matches; and only the references and the tolerance matter. -/
def Obligations.ClassifyReturnsTheLeastMatch : Prop :=
  ∀ (c : Cfg) (samples : List Half),
    (∀ k, classify c samples = some k ↔
      k < c.size ∧ isMatch c k samples = true ∧ ∀ j, j < k → isMatch c j samples = false)
    ∧ (classify c samples = none ↔ ∀ k, k < c.size → isMatch c k samples = false)
    ∧ ∀ d : Cfg, d.tolerance = c.tolerance → d.table.map (·.reference) = c.table.map (·.reference) →
        classify d samples = classify c samples

/-- R166: equal length, and every deviation, taken on the integers, at most 100. -/
def Obligations.MatchIsLengthAndTolerance : Prop :=
  ∀ (c : Cfg) (k : Nat) (samples : List Half), c.wf = true →
    (isMatch c k samples = true ↔
      ∃ code, c.code k = some code ∧ code.length = samples.length
        ∧ ∀ i (h : i < code.length) (h' : i < samples.length),
            ((code[i] : Int) - (samples[i].toNat : Int)).natAbs ≤ 100)

/-- R170: the length is compared exactly, and the empty input matches exactly the references of length 0. -/
def Obligations.DifferentLengthNeverMatches : Prop :=
  ∀ c : Cfg,
    (∀ k code samples, c.code k = some code → code.length ≠ samples.length → isMatch c k samples = false)
    ∧ (∀ k, isMatch c k [] = true ↔ c.code k = some [])
    ∧ ((∀ k code, c.code k = some code → code ≠ []) → classify c [] = none)

/-- R180. -/
def Obligations.NoMatchIsReported : Prop :=
  ∀ (s : State) (rep : Byte) (samples : List Half),
    Dispatches s (1 :: rep :: sampleBytes (samples.map (·.toNat))) → classify s.cfg samples = none →
    step s = .next
      { s.beginCycle with
        evLog := s.evLog ++ [.noMatch rep samples.length samples]
        evPort := some (.noMatch rep samples.length samples)
        phase := .rxLen0 }

/-- R181; the observer's name of the event is `NAME(k)`. -/
def Obligations.MatchWithoutTranslationIsReported : Prop :=
  ∀ (s : State) (rep : Byte) (samples : List Half) (k : Nat),
    Dispatches s (1 :: rep :: sampleBytes (samples.map (·.toNat))) →
    classify s.cfg samples = some k → s.cfg.trans k = none →
    step s = .next
        { s.beginCycle with evLog := s.evLog ++ [.matched k], evPort := some (.matched k), phase := .rxLen0 }
      ∧ (Event.matched k).matchedName s.cfg = s.cfg.name k

/-- R182, R183. -/
def Obligations.TranslationArmsTheRetransmission : Prop :=
  ∀ (s : State) (rep : Byte) (samples : List Half) (k j : Nat),
    Dispatches s (1 :: rep :: sampleBytes (samples.map (·.toNat))) →
    classify s.cfg samples = some k → s.cfg.trans k = some j →
    step s = .next
      { s.beginCycle with
        evLog := s.evLog ++ [.translate k j]
        evPort := some (.translate k j)
        txTarget := j
        delayCnt := s.cfg.delayTicks
        phase := .delay }

/-- R57, R184: every cycle of the delay is a tick, and `n` of them count `n` down, whatever the inputs but `rst` are. -/
def Obligations.TicksCountTheDelayDown : Prop :=
  ∀ (s : State) (n : Nat), s.cfg.wf = true → s.phase = .delay → n ≤ s.delayCnt →
    (∀ i, i < n → (s.inputAt i).rst = false) →
    ∃ t, core.run n s = .next t ∧ t.phase = .delay ∧ t.delayCnt = s.delayCnt - n ∧ t.txTarget = s.txTarget
      ∧ t.txLog = s.txLog ∧ t.evLog = s.evLog ∧ t.fault = s.fault ∧ t.rxHeld = s.rxHeld ++ s.arrivals n

/-- R185; the byte offered next is the first of `TXFRAME(tx_target)`. -/
def Obligations.DelayDoneStartsTheTransmission : Prop :=
  ∀ s : State, s.cfg.wf = true → s.cycleInput.rst = false → s.phase = .delay → s.delayCnt = 0 →
    ∃ t, step s = .next t ∧ t = { s.beginCycle with txIdx := 0, phase := .tx }
      ∧ t.txData = (txBytes s.cfg s.txTarget)[0]?

/-- R68, R69, R186, R190: a translated frame, from its dispatch to the last byte of the answer. The event comes first, then the whole
delay, then the frame, byte after byte; and no received byte is accepted on the way. -/
def Obligations.TranslatedFrameIsAnsweredInOrder : Prop :=
  ∀ (s : State) (rep : Byte) (samples : List Half) (k j : Nat) (frame : List Byte),
    Dispatches s (1 :: rep :: sampleBytes (samples.map (·.toNat))) →
    classify s.cfg samples = some k → s.cfg.trans k = some j → txFrame s.cfg j = .ok frame →
    QuietFor (s.cfg.delayTicks + 2 + frame.length) s → AcceptsFor (s.cfg.delayTicks + 2 + frame.length) s →
    ∀ m, m ≤ s.cfg.delayTicks + 2 + frame.length →
      ∃ t, core.run m s = .next t
        ∧ t.rxHeld = s.rxHeld ++ s.arrivals m ∧ t.fault = s.fault
        ∧ (1 ≤ m → t.evLog = s.evLog ++ [.translate k j])
        ∧ t.txLog = s.txLog ++ frame.take (m - (s.cfg.delayTicks + 2))
        ∧ (m = s.cfg.delayTicks + 2 + frame.length →
            t.phase = .rxLen0 ∧ t.txTarget = j ∧ t.txIdx.toNat = frame.length ∧ t.delayCnt = 0)

/-- R200: the fatal exception, in each I/O phase; an offered byte stays with the transport. -/
def Obligations.TransportFailureHalts : Prop :=
  ∀ s : State, s.cfg.wf = true → s.cycleInput.rst = false → s.cycleInput.xportFail = true →
    s.phase = .rxLen0 ∨ s.phase = .rxLen1 ∨ s.phase = .rxBody ∨ s.phase = .tx →
    step s = .next { s.beginCycle with fault := true, phase := .halt }

/-- R201: in `HALT` no step is enabled, a clock cycle without `rst` changes nothing of the block, the outputs are as the rule says, and
the verdict on the run is that it has faulted. -/
def Obligations.HaltedBlockDoesNothing : Prop :=
  ∀ s : State, s.phase = .halt →
    (∀ a, enabled a s = false ∧ perform a s = .next s)
    ∧ (s.cfg.wf = true → s.cycleInput.rst = false → step s = .next s.beginCycle)
    ∧ s.rxReady = false ∧ s.txValid = false ∧ s.verdict = .faulted
    ∧ (Reached s → s.evValid = false ∧ s.fault = true)

/-- R24, R54, R204, R205: an input that the phase does not sample has no effect and is not remembered. -/
def Obligations.UnsampledInputsHaveNoEffect : Prop :=
  ∀ (s : State) (c d : CycleInput) (rest : List CycleInput), s.inputs = c :: rest →
    d.rst = c.rst → d.arrive = c.arrive →
    ((s.phase = .rxLen0 ∨ s.phase = .rxLen1 ∨ s.phase = .rxBody)
        ∧ d.xportFail = c.xportFail ∧ d.rxTimeout = c.rxTimeout)
      ∨ (s.phase = .dispatch ∧ d.dispatchBusy = c.dispatchBusy)
      ∨ s.phase = .delay
      ∨ (s.phase = .tx ∧ d.xportFail = c.xportFail ∧ d.txReady = c.txReady)
      ∨ s.phase = .halt →
    step { s with inputs := d :: rest } = step s

/-- R210, R51: a failure wins over an offered byte, which wins over a timeout; in `TX` a failure wins over acceptance. -/
def Obligations.FailureThenByteThenTimeout : Prop :=
  ∀ s : State, s.cfg.wf = true → s.cycleInput.rst = false →
    (s.phase = .rxLen0 ∨ s.phase = .rxLen1 ∨ s.phase = .rxBody →
      (s.cycleInput.xportFail = true → step s = perform .fail s.beginCycle)
      ∧ (s.cycleInput.xportFail = false → ∀ b rest, Offers s b rest →
          step s = perform (.rxByte b) { s.beginCycle with rxHeld := rest })
      ∧ (s.cycleInput.xportFail = false → OffersNone s →
          (s.cycleInput.rxTimeout = true → step s = perform .rxTimeout s.beginCycle)
          ∧ (s.cycleInput.rxTimeout = false → step s = .next s.beginCycle)))
    ∧ (s.phase = .tx →
      (s.cycleInput.xportFail = true → step s = perform .fail s.beginCycle)
      ∧ (s.cycleInput.xportFail = false → s.cycleInput.txReady = true → step s = perform .txByte s.beginCycle))

/-- R24: the steps each phase enables; a step that is not enabled has no effect; and a clock cycle only takes an enabled one. -/
def Obligations.PhaseEnablesItsSteps : Prop :=
  ∀ (s : State) (a : Action),
    (enabled a s = true ↔
      ((s.phase = .rxLen0 ∨ s.phase = .rxLen1 ∨ s.phase = .rxBody)
          ∧ ((∃ b, a = .rxByte b) ∨ a = .rxTimeout ∨ a = .fail))
        ∨ (s.phase = .dispatch ∧ a = .dispatch)
        ∨ (s.phase = .delay ∧ ((0 < s.delayCnt ∧ a = .tick) ∨ (s.delayCnt = 0 ∧ a = .delayDone)))
        ∨ (s.phase = .tx ∧ (a = .txByte ∨ a = .fail)))
    ∧ (enabled a s = false → perform a s = .next s)
    ∧ ∀ c, choose c s = .act a → c.rst = false ∧ enabled a s = true

/-- R25: every row of the transition table is what the model does, and an enabled step of a state that meets the invariant is a row of
the table. -/
def Obligations.TransitionTableIsFollowed : Prop :=
  (∀ (a : Action) (s t : State), Transition a s t → perform a s = .next t)
  ∧ ∀ (a : Action) (s : State), Inv s → enabled a s = true → ∃ t, perform a s = .next t ∧ Transition a s t

/-- R27: the flag is set by a transport failure in an I/O phase and by nothing else, and cleared by reset and by nothing else. -/
def Obligations.FaultFlagFollowsFailureAndReset : Prop :=
  ∀ s t : State, step s = .next t →
    (s.fault = false → t.fault = true →
      s.cycleInput.rst = false ∧ s.cycleInput.xportFail = true
        ∧ (s.phase = .rxLen0 ∨ s.phase = .rxLen1 ∨ s.phase = .rxBody ∨ s.phase = .tx))
    ∧ (s.fault = true → t.fault = false → s.cycleInput.rst = true)

/-- R56, R67: a cycle without reset adds at most one event to the log, and only a dispatch adds one; the port presents that event in
that cycle, and otherwise nothing. -/
def Obligations.OneEventAtMostPerStep : Prop :=
  ∀ s t : State, step s = .next t → s.cycleInput.rst = false →
    ∃ news : List Event, t.evLog = s.evLog ++ news ∧ news.length ≤ 1 ∧ t.evPort = news.head?
      ∧ (news ≠ [] → s.phase = .dispatch ∧ s.cycleInput.dispatchBusy = false)

/-- R52, R63, R66: a cycle leaves what the transport holds as it is, or accepts the oldest byte of it, and that only in an RX phase. -/
def Obligations.BytesAreAcceptedOnceInOrder : Prop :=
  ∀ s t : State, step s = .next t →
    t.rxHeld = s.beginCycle.rxHeld
      ∨ (s.rxReady = true ∧ s.cycleInput.rst = false ∧ s.cycleInput.xportFail = false
          ∧ ∃ b, s.beginCycle.rxHeld = b :: t.rxHeld)

/-- R73: what the block sends is, if it comes back, a frame of type 2, which has no effect. -/
def Obligations.LoopedBackFrameIsANoOp : Prop :=
  ∀ (c : Cfg) (j : Nat) (frame : List Byte), txFrame c j = .ok frame →
    ∃ payload, decodeFrame frame = .ok (.sendRequest payload, [])
      ∧ ∀ s : State, exec (.sendRequest payload) s = .next { s with phase := .rxLen0 }

/-- R96: exactly one pattern of the table covers each type byte: the exact ones cover 0 to 3, the six others the rest by the highest set
bit. -/
def Obligations.TypeMapIsDisjointAndTotal : Prop :=
  ∀ type : Byte,
    (typePatterns.filter (·.covers type)).length = 1
    ∧ rowOf type = some
        (if type.toNat = 0 then .message else if type.toNat = 1 then .received else if type.toNat = 2 then .sendRequest
          else if type.toNat = 3 then .sendResponse else if type.toNat < 8 then .unknown04
          else if type.toNat < 16 then .unknown08 else if type.toNat < 32 then .unknown10
          else if type.toNat < 64 then .unknown20 else if type.toNat < 128 then .unknown40 else .unknown80)

/-- Every instruction that some frame carries comes back from its body and from its frame, whatever follows it on the wire. -/
def Obligations.DecodeOfEncodeIsTheInstruction : Prop :=
  ∀ i : Instr, i.wf = true →
    decodeBody (encodeBody i) = .ok i
      ∧ ∃ frame, encode i = .ok frame ∧ frame.length = (encodeBody i).length + 2
        ∧ ∀ rest, decodeFrame (frame ++ rest) = .ok (i, rest)

/-- The decoder is total on bodies, and no byte of a body is dropped: what it answers encodes to the very bytes. -/
def Obligations.EveryBodyDecodesAndEncodesBack : Prop :=
  ∀ bytes : List Byte, 1 ≤ bytes.length → bytes.length ≤ 65535 →
    ∃ i, decodeBody bytes = .ok i ∧ encodeBody i = bytes ∧ i.wf = true

/-- Words written out from the spec's examples decode to what they stand for (rules R146 to R153, their examples). -/
def Obligations.SpecExamplesDecode : Prop :=
  decodeFrame [0x05, 0x00, 0x00, 0x01, 0x02, 0x68, 0x69] = .ok (.message (.full 1 2 [0x68, 0x69]), [])
    ∧ decodeFrame [0x0A, 0x00, 0x01, 0x09, 0x92, 0x09, 0x8A, 0x02, 0x7E, 0x04, 0x58, 0x02]
        = .ok (.received (.whole 9 [2450, 650, 1150, 600]), [])
    ∧ decodeFrame [0x04, 0x00, 0x02, 0x14, 0x10, 0x27] = .ok (.sendRequest [0x14, 0x10, 0x27], [])
    ∧ decodeFrame [0x01, 0x00, 0x03] = .ok (.sendResponse [], [])
    ∧ decodeFrame [0x03, 0x00, 0xFF, 0xDE, 0xAD] = .ok (.unknown80 127 [0xDE, 0xAD], [])

/-- The invariant holds at reset, under every well-formed configuration and whatever the environment is about to do. -/
def Obligations.InvariantHoldsAtReset : Prop :=
  ∀ s : State, CfgWellFormed s → AtReset s → Inv s

/-- R34: from every state that meets the invariant, a clock cycle answers a next state, never a fault or a refusal, and that state
meets it. -/
def Obligations.EveryStepKeepsTheInvariant : Prop :=
  ∀ s : State, Inv s → ∃ t, step s = .next t ∧ Inv t

/-- R34 for whole runs: under a well-formed configuration no environment stops the machine, and every state reached meets the
invariant. -/
def Obligations.NoRunStopsAndAllMeetTheInvariant : Prop :=
  ∀ (start : State) (n : Nat), CfgWellFormed start → AtReset start →
    ∃ t, core.run n start = .next t ∧ Inv t ∧ t.cfg = start.cfg

/-- R34(g), R70, R186: in every run the transmit log is a sequence of complete frames of translation targets, then at most one
proper part of one, and that only in `TX` or `HALT`; the complete frames are those of the `EV_TRANSLATE` events in order, less at most one. -/
def Obligations.SentFramesFollowTranslations : Prop :=
  ∀ s : State, Reached s →
    ∃ (sent : List Nat) (part : List Byte),
      s.txLog = framesOf s.cfg sent ++ part ∧ (∀ j ∈ sent, s.cfg.isTarget j)
        ∧ (part ≠ [] → (s.phase = .tx ∨ s.phase = .halt)
            ∧ ∃ j frame, s.cfg.isTarget j ∧ txFrame s.cfg j = .ok frame ∧ part.length < frame.length
                ∧ part = frame.take part.length)
        ∧ (translations s.evLog = sent ∨ ∃ j, translations s.evLog = sent ++ [j])
        ∧ (s.phase = .rxLen0 ∨ s.phase = .rxLen1 ∨ s.phase = .rxBody ∨ s.phase = .dispatch →
            translations s.evLog = sent)
end

