-- ==== Sys2Proof/Laws/Decode.lean ====
section
/-! SUPPORT. The laws of the byte order, the sample bytes, the type map and the payload forms. -/

namespace Sys2Proof

@[simp] theorem le16_toNat (lo hi : Byte) : (le16 lo hi).toNat = lo.toNat + 256 * hi.toNat := by
  have := lo.isLt
  have := hi.isLt
  simp only [le16, BitVec.toNat_ofNat]
  omega

@[simp] theorem lo8_toNat (v : Nat) : (lo8 v).toNat = v % 256 := by
  simp only [lo8, BitVec.toNat_ofNat]
  omega

theorem hi8_toNat {v : Nat} (h : v ≤ 65535) : (hi8 v).toNat = v / 256 := by
  simp only [hi8, BitVec.toNat_ofNat]
  omega

/-- The two bytes of a 16-bit quantity give it back (rules R85, R86). -/
theorem le16_lo8_hi8 {v : Nat} (h : v ≤ 65535) : (le16 (lo8 v) (hi8 v)).toNat = v := by
  rw [le16_toNat, lo8_toNat, hi8_toNat h]
  omega

theorem le16_lo8_hi8_half (v : Half) : le16 (lo8 v.toNat) (hi8 v.toNat) = v :=
  BitVec.eq_of_toNat_eq (le16_lo8_hi8 (by have := v.isLt; omega))

theorem lo8_le16 (lo hi : Byte) : lo8 (le16 lo hi).toNat = lo := by
  have := lo.isLt
  apply BitVec.eq_of_toNat_eq
  rw [lo8_toNat, le16_toNat]
  omega

theorem hi8_le16 (lo hi : Byte) : hi8 (le16 lo hi).toNat = hi := by
  have := lo.isLt
  have := hi.isLt
  apply BitVec.eq_of_toNat_eq
  rw [hi8_toNat (by rw [le16_toNat]; omega), le16_toNat]
  omega

/-- A 16-bit quantity is zero only when both its bytes are. -/
theorem le16_eq_zero {lo hi : Byte} (h : le16 lo hi = 0) : lo = 0 ∧ hi = 0 := by
  have hz : lo.toNat + 256 * hi.toNat = 0 := by rw [← le16_toNat, h]; rfl
  exact ⟨BitVec.eq_of_toNat_eq (by simp; omega), BitVec.eq_of_toNat_eq (by simp; omega)⟩

@[simp] theorem sampleBytes_nil : sampleBytes [] = [] := rfl

@[simp] theorem sampleBytes_cons (v : Nat) (rest : List Nat) :
    sampleBytes (v :: rest) = lo8 v :: hi8 v :: sampleBytes rest := rfl

@[simp] theorem sampleBytes_length (durations : List Nat) : (sampleBytes durations).length = 2 * durations.length := by
  induction durations with
  | nil => rfl
  | cons v rest ih => simp [ih]; omega

/-- Sample `q` stands at bytes `2q` and `2q + 1`, low byte first (rules R61, R84). -/
theorem sampleBytes_get (durations : List Nat) (q : Nat) :
    (sampleBytes durations)[2 * q]? = durations[q]?.map lo8
      ∧ (sampleBytes durations)[2 * q + 1]? = durations[q]?.map hi8 := by
  induction durations generalizing q with
  | nil => simp
  | cons v rest ih =>
    cases q with
    | zero => simp
    | succ q => simpa [show 2 * (q + 1) = 2 * q + 1 + 1 by omega] using ih q

@[simp] theorem pairSamples_nil : pairSamples [] = ([], none) := rfl

@[simp] theorem pairSamples_one (b : Byte) : pairSamples [b] = ([], some b) := rfl

@[simp] theorem pairSamples_cons (lo hi : Byte) (rest : List Byte) :
    pairSamples (lo :: hi :: rest) = (le16 lo hi :: (pairSamples rest).1, (pairSamples rest).2) := rfl

/-- Pairing undoes the sample bytes, whatever at most one byte follows (rules R85, R86). -/
theorem pairSamples_sampleBytes (samples : List Half) (trailing : Option Byte) :
    pairSamples (sampleBytes (samples.map (·.toNat)) ++ trailing.toList) = (samples, trailing) := by
  induction samples with
  | nil => cases trailing <;> rfl
  | cons v rest ih => simp [ih, le16_lo8_hi8_half]

/-- The sample bytes undo pairing. -/
theorem sampleBytes_pairSamples (bytes : List Byte) :
    sampleBytes ((pairSamples bytes).1.map (·.toNat)) ++ (pairSamples bytes).2.toList = bytes := by
  induction bytes using pairSamples.induct with
  | case1 => rfl
  | case2 b => rfl
  | case3 lo hi rest ih =>
    simp only [pairSamples_cons, List.map_cons, sampleBytes_cons, List.cons_append, ih]
    rw [lo8_le16, hi8_le16]

/-- A byte is left over exactly when the number of bytes is odd (rule R90). -/
theorem pairSamples_trailing (bytes : List Byte) :
    (pairSamples bytes).2.isSome = decide (bytes.length % 2 = 1) := by
  induction bytes using pairSamples.induct with
  | case1 => rfl
  | case2 b => rfl
  | case3 lo hi rest ih =>
    simp only [pairSamples_cons, ih, List.length_cons]
    exact decide_eq_decide.2 (by omega)

/-- The sample count is half the bytes, rounded down (rules R84, R87). -/
theorem pairSamples_length (bytes : List Byte) : (pairSamples bytes).1.length = bytes.length / 2 := by
  induction bytes using pairSamples.induct with
  | case1 => rfl
  | case2 b => simp
  | case3 lo hi rest ih => simp [ih]; omega

/-- Sample `q` is the pair of bytes `2q` and `2q + 1` (rules R84, R85). -/
theorem pairSamples_get (bytes : List Byte) (q : Nat) (h : 2 * q + 1 < bytes.length) :
    (pairSamples bytes).1[q]? = some (le16 (bytes[2 * q]'(by omega)) bytes[2 * q + 1]) := by
  induction bytes using pairSamples.induct generalizing q with
  | case1 => simp at h
  | case2 b => simp at h
  | case3 lo hi rest ih =>
    cases q with
    | zero => simp
    | succ q =>
      have hq := ih q (by simp at h; omega)
      simpa [show 2 * (q + 1) = 2 * q + 1 + 1 by omega] using hq

/-- Every type byte has a row (rule R96). -/
theorem rowOf_isSome (type : Byte) : (rowOf type).isSome = true := by
  revert type; decide

/-- The row of a type from 4 up is one of the six unknown rows, and its constructor holds the whole type byte
(rules R92, R96). -/
theorem rowOf_typeByte (type : Byte) (row : Row) (payload : List Byte) (h : rowOf type = some row) :
    (row.instr type payload).typeByte = type := by
  have key : ∀ t : Byte, ∀ r : Row, rowOf t = some r → (r.instr t []).typeByte = t := by
    intro t r
    revert t
    cases r <;> decide
  have := key type row h
  cases row <;> simpa [Row.instr, Instr.typeByte] using this

theorem messageForm_payload (payload : List Byte) : (messageForm payload).payload = payload := by
  match payload with
  | [] => rfl
  | [_] => rfl
  | _ :: _ :: _ => rfl

theorem messageForm_of_payload (form : MessageForm) : messageForm form.payload = form := by
  match form with
  | .full _ _ _ => rfl
  | .short none => rfl
  | .short (some _) => rfl

theorem receivedForm_cons (rep : Byte) (rest : List Byte) :
    receivedForm (rep :: rest) =
      match (pairSamples rest).2 with
      | none => .whole rep (pairSamples rest).1
      | some trailing => .odd rep (pairSamples rest).1 trailing := by
  simp only [receivedForm]
  rcases pairSamples rest with ⟨samples, _ | trailing⟩ <;> rfl

theorem receivedForm_payload (payload : List Byte) : (receivedForm payload).payload = payload := by
  match payload with
  | [] => rfl
  | rep :: rest =>
    rw [receivedForm_cons]
    have h := sampleBytes_pairSamples rest
    cases hp : (pairSamples rest).2 with
    | none => simpa [ReceivedForm.payload, hp] using h
    | some trailing => simpa [ReceivedForm.payload, hp] using h

theorem receivedForm_of_payload (form : ReceivedForm) : receivedForm form.payload = form := by
  match form with
  | .empty => rfl
  | .whole rep samples =>
    have h := pairSamples_sampleBytes samples none
    simp only [Option.toList_none, List.append_nil] at h
    simp [ReceivedForm.payload, receivedForm_cons, h]
  | .odd rep samples trailing =>
    have h := pairSamples_sampleBytes samples (some trailing)
    simp only [Option.toList_some] at h
    simp [ReceivedForm.payload, receivedForm_cons, h]

/-- What the decoder answers for a body: the row of its type byte decides (rules R96, R145). -/
theorem decodeBody_cons (type : Byte) (payload : List Byte) (h : payload.length ≤ maxPayload) {row : Row}
    (hr : rowOf type = some row) : decodeBody (type :: payload) = .ok (row.instr type payload) := by
  simp [decodeBody, h, hr]

/-- What the encoder answers (rules R87, R130). -/
theorem encodeFrame_ok (type : Byte) (payload : List Byte) (h : payload.length ≤ maxPayload) :
    encodeFrame type payload =
      .ok (lo8 (1 + payload.length) :: hi8 (1 + payload.length) :: type :: payload) := by
  simp [encodeFrame, h]

theorem encodeFrame_inv {type : Byte} {payload frame : List Byte} (h : encodeFrame type payload = .ok frame) :
    payload.length ≤ maxPayload
      ∧ frame = lo8 (1 + payload.length) :: hi8 (1 + payload.length) :: type :: payload := by
  simp only [encodeFrame] at h
  split at h
  · next hl => exact ⟨hl, (Except.ok.inj h).symm⟩
  · cases h

end Sys2Proof
end

