-- ==== Sys2Proof/Laws/Memory.lean ====
section
/-! SUPPORT. The laws of the body buffer: a read after a write, the canonical form every operation keeps, and the bytes a
sequence of writes leaves. -/

namespace Sys2Proof.Machine

open Sys2Proof

@[simp] theorem read_nil (index : Nat) : Memory.read [] index = none := rfl

theorem read_write_same (m : Memory) (index : Nat) (b : Byte) : (m.write index b).read index = some b := by
  induction m with
  | nil => simp [Memory.write, Memory.read]
  | cons cell rest ih =>
    obtain ⟨at', old⟩ := cell
    simp only [Memory.write]
    split
    · simp [Memory.read]
    · split
      · simp [Memory.read]
      · next h => simp [Memory.read, h, ih]

theorem read_write_other (m : Memory) {index other : Nat} (b : Byte) (h : other ≠ index) :
    (m.write index b).read other = m.read other := by
  induction m with
  | nil => simp [Memory.write, Memory.read, h, Memory.unlisted]
  | cons cell rest ih =>
    obtain ⟨at', old⟩ := cell
    simp only [Memory.write]
    split
    · simp [Memory.read, h]
    · split
      · next h' => subst h'; simp [Memory.read, h]
      · simp [Memory.read, ih]

/-- A read after a write, in one equation. -/
theorem read_write (m : Memory) (index other : Nat) (b : Byte) :
    (m.write index b).read other = if other = index then some b else m.read other := by
  split
  · next h => subst h; exact read_write_same m other b
  · next h => exact read_write_other m b h

/-- The indices a write leaves listed. -/
theorem mem_write {m : Memory} {index : Nat} {b : Byte} {cell : Host.Cell} (h : cell ∈ m.write index b) :
    cell = (index, b) ∨ cell ∈ m := by
  induction m with
  | nil => simpa [Memory.write] using h
  | cons head rest ih =>
    obtain ⟨at', old⟩ := head
    simp only [Memory.write] at h
    split at h
    · simpa using h
    · split at h
      · rcases List.mem_cons.1 h with h | h
        · exact .inl h
        · exact .inr (List.mem_cons_of_mem _ h)
      · rcases List.mem_cons.1 h with h | h
        · exact .inr (h ▸ List.mem_cons_self)
        · exact (ih h).imp_right (List.mem_cons_of_mem _)

theorem wf_nil : Memory.wf [] := List.Pairwise.nil

/-- A write keeps the canonical form. -/
theorem wf_write {m : Memory} (index : Nat) (b : Byte) (h : Memory.wf m) : Memory.wf (m.write index b) := by
  induction m with
  | nil => exact List.pairwise_singleton _ _
  | cons cell rest ih =>
    obtain ⟨at', old⟩ := cell
    obtain ⟨hHead, hRest⟩ := List.pairwise_cons.1 h
    simp only [Memory.write]
    split
    · next hlt =>
      refine List.pairwise_cons.2 ⟨fun a ha => ?_, h⟩
      rcases List.mem_cons.1 ha with rfl | ha
      · exact hlt
      · exact Nat.lt_trans hlt (hHead a ha)
    · split
      · next heq => subst heq; exact List.pairwise_cons.2 ⟨hHead, hRest⟩
      · next hle hne =>
        refine List.pairwise_cons.2 ⟨fun a ha => ?_, ih hRest⟩
        obtain ⟨cell, hc, rfl⟩ := List.mem_map.1 ha
        rcases mem_write hc with rfl | hc
        · simp only at *; omega
        · exact hHead _ (List.mem_map_of_mem hc)

theorem wf_writeAll {m : Memory} (index : Nat) (bytes : List Byte) (h : Memory.wf m) :
    Memory.wf (m.writeAll index bytes) := by
  induction bytes generalizing m index with
  | nil => exact h
  | cons b rest ih => exact ih (index + 1) (wf_write index b h)

/-- The reset state's buffer is in canonical form (rule R33). -/
theorem wf_reset : Memory.wf State.reset.body := wf_nil

/-- A read after writing consecutive bytes. -/
theorem read_writeAll (m : Memory) (index other : Nat) (bytes : List Byte) :
    (m.writeAll index bytes).read other =
      if h : index ≤ other ∧ other < index + bytes.length then some (bytes[other - index]'(by omega))
      else m.read other := by
  induction bytes generalizing m index with
  | nil => simp only [Memory.writeAll, List.length_nil]; rw [dif_neg (by omega)]
  | cons b rest ih =>
    simp only [Memory.writeAll, ih, read_write, List.length_cons]
    by_cases heq : other = index
    · subst heq
      rw [dif_neg (by omega), if_pos rfl, dif_pos (by omega)]
      simp
    · rw [if_neg heq]
      by_cases hin : index + 1 ≤ other ∧ other < index + 1 + rest.length
      · rw [dif_pos hin, dif_pos (by omega)]
        obtain ⟨d, rfl⟩ : ∃ d, other = index + 1 + d := ⟨other - (index + 1), by omega⟩
        simp [show index + 1 + d - index = d + 1 by omega]
      · rw [dif_neg hin, dif_neg (by omega)]

end Sys2Proof.Machine
end

