-- ==== Sys2Proof/Laws/Operands.lean ====
section
/-! SUPPORT. What a well-formed configuration gives for a target of the translation map: its reference, and its frame. -/

namespace Sys2Proof

/-- A target of a well-formed configuration is an index of the table, its frame fits, and its durations are 16-bit
(rule R9 (a) to (c), (e)). -/
theorem code_of_target {c : Cfg} {j : Nat} (hwf : c.wf = true) (h : c.isTarget j) :
    ∃ code, c.code j = some code ∧ code.length ≤ 32766 ∧ (∀ v ∈ code, v ≤ 65535) ∧ c.txRepeat = 20 := by
  obtain ⟨k, hk⟩ := h
  simp only [Cfg.wf, Cfg.durationsFit, Cfg.targetsFit, Cfg.constantsFixed, Bool.and_eq_true, decide_eq_true_eq,
    List.all_eq_true] at hwf
  obtain ⟨⟨⟨hDurations, hTargets⟩, -⟩, hConstants⟩ := hwf
  simp only [Cfg.trans, Option.bind_eq_some_iff] at hk
  obtain ⟨e, he, ht⟩ := hk
  have hfits := hTargets e (List.mem_of_getElem? he)
  simp only [Cfg.targetFits, ht, Cfg.len] at hfits
  cases hc : c.code j with
  | none => simp [hc] at hfits
  | some code =>
    refine ⟨code, rfl, by simpa [hc] using hfits, ?_, hConstants.1.2⟩
    simp only [Cfg.code, Option.map_eq_some_iff] at hc
    obtain ⟨e', he', rfl⟩ := hc
    exact hDurations e' (List.mem_of_getElem? he')

/-- The frame of a code whose length fits: the four header bytes and two bytes for each duration (rule R134). -/
theorem txFrame_of_code {c : Cfg} {j : Nat} {code : List Nat} (hc : c.code j = some code) (hl : code.length ≤ 32766) :
    Machine.txFrame c j =
      .ok (lo8 (2 + 2 * code.length) :: hi8 (2 + 2 * code.length) :: 2 :: c.txRepeat :: sampleBytes code) := by
  have hlen : 1 + (c.txRepeat :: sampleBytes code).length = 2 + 2 * code.length := by simp; omega
  rw [Machine.txFrame, hc]
  simp only [encodeFrame_ok 2 (c.txRepeat :: sampleBytes code) (by simp only [maxPayload]; omega), hlen]

/-- The frame of a target of a well-formed configuration is defined, and is not empty (rules R34(d), R135). -/
theorem txFrame_of_target {c : Cfg} {j : Nat} (hwf : c.wf = true) (h : c.isTarget j) :
    ∃ frame, Machine.txFrame c j = .ok frame ∧ 4 ≤ frame.length ∧ frame.length ≤ 65536 := by
  obtain ⟨code, hc, hl, -⟩ := code_of_target hwf h
  exact ⟨_, txFrame_of_code hc hl, by simp, by simp; omega⟩

/-- A frame the block can send is an encoded type-2 frame (rule R134). -/
theorem txFrame_inv {c : Cfg} {j : Nat} {frame : List Byte} (h : Machine.txFrame c j = .ok frame) :
    ∃ payload, encodeFrame 2 payload = .ok frame := by
  simp only [Machine.txFrame] at h
  split at h
  · cases h
  · next code _ =>
    refine ⟨c.txRepeat :: sampleBytes code, ?_⟩
    cases he : encodeFrame 2 (c.txRepeat :: sampleBytes code) with
    | ok f => rw [he] at h; cases h; rfl
    | error e => cases e; rw [he] at h; cases h

/-- `IDX_W` bits hold every target of a well-formed configuration (rules R9(b), R22). -/
theorem target_lt {c : Cfg} {j : Nat} (hwf : c.wf = true) (h : c.isTarget j) : j < 2 ^ c.idxW := by
  obtain ⟨code, hc, -⟩ := code_of_target hwf h
  have hlt : j < c.size := by
    simp only [Cfg.code, Option.map_eq_some_iff] at hc
    obtain ⟨e, he, -⟩ := hc
    exact (List.getElem?_eq_some_iff.1 he).1
  simp only [Cfg.idxW]
  split
  · omega
  · have := Nat.lt_log2_self (n := c.size - 1)
    omega

end Sys2Proof
end

