-- ==== Sys2Proof/Laws/PerInstr.lean ====
section
/-! SUPPORT. Statements for all instructions, one lemma per constructor. `TypeRow`: the type byte an instruction is encoded with is covered
by the pattern of its own row, so the decoder takes that row (rule R96). -/

namespace Sys2Proof.Laws.TypeRow

open Sys2Proof

/-- The type byte of the instruction belongs to the instruction's row of spec/opcode_table.json. -/
def Statement (i : Instr) : Prop := rowOf i.typeByte = some i.row

theorem message (form : MessageForm) : Statement (.message form) := by
  show rowOf 0 = some .message
  decide

theorem received (form : ReceivedForm) : Statement (.received form) := by
  show rowOf 1 = some .received
  decide

theorem sendRequest (payload : List Byte) : Statement (.sendRequest payload) := by
  show rowOf 2 = some .sendRequest
  decide

theorem sendResponse (payload : List Byte) : Statement (.sendResponse payload) := by
  show rowOf 3 = some .sendResponse
  decide

theorem unknown80 (low : BitVec 7) (payload : List Byte) : Statement (.unknown80 low payload) := by
  show rowOf (1#1 ++ low) = some .unknown80
  revert low; decide

theorem unknown40 (low : BitVec 6) (payload : List Byte) : Statement (.unknown40 low payload) := by
  show rowOf (1#2 ++ low) = some .unknown40
  revert low; decide

theorem unknown20 (low : BitVec 5) (payload : List Byte) : Statement (.unknown20 low payload) := by
  show rowOf (1#3 ++ low) = some .unknown20
  revert low; decide

theorem unknown10 (low : BitVec 4) (payload : List Byte) : Statement (.unknown10 low payload) := by
  show rowOf (1#4 ++ low) = some .unknown10
  revert low; decide

theorem unknown08 (low : BitVec 3) (payload : List Byte) : Statement (.unknown08 low payload) := by
  show rowOf (1#5 ++ low) = some .unknown08
  revert low; decide

theorem unknown04 (low : BitVec 2) (payload : List Byte) : Statement (.unknown04 low payload) := by
  show rowOf (1#6 ++ low) = some .unknown04
  revert low; decide

end Sys2Proof.Laws.TypeRow
end

