-- ==== Sys2Proof/Laws/State.lean ====
section
/-! SUPPORT. For each named update of the state, what each field holds after it: one lemma per field per update, so that no later
proof unfolds a record update. -/

namespace Sys2Proof.Machine

open Sys2Proof

variable (s : State)

section setPhase

@[simp] theorem setPhase_cfg (p : Phase) : (s.setPhase p).cfg = s.cfg := rfl
@[simp] theorem setPhase_phase (p : Phase) : (s.setPhase p).phase = p := rfl
@[simp] theorem setPhase_lenLo (p : Phase) : (s.setPhase p).lenLo = s.lenLo := rfl
@[simp] theorem setPhase_rxLen (p : Phase) : (s.setPhase p).rxLen = s.rxLen := rfl
@[simp] theorem setPhase_rxCnt (p : Phase) : (s.setPhase p).rxCnt = s.rxCnt := rfl
@[simp] theorem setPhase_body (p : Phase) : (s.setPhase p).body = s.body := rfl
@[simp] theorem setPhase_txTarget (p : Phase) : (s.setPhase p).txTarget = s.txTarget := rfl
@[simp] theorem setPhase_txIdx (p : Phase) : (s.setPhase p).txIdx = s.txIdx := rfl
@[simp] theorem setPhase_delayCnt (p : Phase) : (s.setPhase p).delayCnt = s.delayCnt := rfl
@[simp] theorem setPhase_fault (p : Phase) : (s.setPhase p).fault = s.fault := rfl
@[simp] theorem setPhase_txLog (p : Phase) : (s.setPhase p).txLog = s.txLog := rfl
@[simp] theorem setPhase_evLog (p : Phase) : (s.setPhase p).evLog = s.evLog := rfl
@[simp] theorem setPhase_evPort (p : Phase) : (s.setPhase p).evPort = s.evPort := rfl
@[simp] theorem setPhase_rxHeld (p : Phase) : (s.setPhase p).rxHeld = s.rxHeld := rfl
@[simp] theorem setPhase_inputs (p : Phase) : (s.setPhase p).inputs = s.inputs := rfl

end setPhase

section emit

@[simp] theorem emit_cfg (e : Event) : (s.emit e).cfg = s.cfg := rfl
@[simp] theorem emit_phase (e : Event) : (s.emit e).phase = s.phase := rfl
@[simp] theorem emit_lenLo (e : Event) : (s.emit e).lenLo = s.lenLo := rfl
@[simp] theorem emit_rxLen (e : Event) : (s.emit e).rxLen = s.rxLen := rfl
@[simp] theorem emit_rxCnt (e : Event) : (s.emit e).rxCnt = s.rxCnt := rfl
@[simp] theorem emit_body (e : Event) : (s.emit e).body = s.body := rfl
@[simp] theorem emit_txTarget (e : Event) : (s.emit e).txTarget = s.txTarget := rfl
@[simp] theorem emit_txIdx (e : Event) : (s.emit e).txIdx = s.txIdx := rfl
@[simp] theorem emit_delayCnt (e : Event) : (s.emit e).delayCnt = s.delayCnt := rfl
@[simp] theorem emit_fault (e : Event) : (s.emit e).fault = s.fault := rfl
@[simp] theorem emit_txLog (e : Event) : (s.emit e).txLog = s.txLog := rfl
@[simp] theorem emit_evLog (e : Event) : (s.emit e).evLog = s.evLog ++ [e] := rfl
@[simp] theorem emit_evPort (e : Event) : (s.emit e).evPort = some e := rfl
@[simp] theorem emit_rxHeld (e : Event) : (s.emit e).rxHeld = s.rxHeld := rfl
@[simp] theorem emit_inputs (e : Event) : (s.emit e).inputs = s.inputs := rfl

end emit

section setLenLo

@[simp] theorem setLenLo_cfg (b : Byte) : (s.setLenLo b).cfg = s.cfg := rfl
@[simp] theorem setLenLo_phase (b : Byte) : (s.setLenLo b).phase = s.phase := rfl
@[simp] theorem setLenLo_lenLo (b : Byte) : (s.setLenLo b).lenLo = b := rfl
@[simp] theorem setLenLo_rxLen (b : Byte) : (s.setLenLo b).rxLen = s.rxLen := rfl
@[simp] theorem setLenLo_rxCnt (b : Byte) : (s.setLenLo b).rxCnt = s.rxCnt := rfl
@[simp] theorem setLenLo_body (b : Byte) : (s.setLenLo b).body = s.body := rfl
@[simp] theorem setLenLo_txTarget (b : Byte) : (s.setLenLo b).txTarget = s.txTarget := rfl
@[simp] theorem setLenLo_txIdx (b : Byte) : (s.setLenLo b).txIdx = s.txIdx := rfl
@[simp] theorem setLenLo_delayCnt (b : Byte) : (s.setLenLo b).delayCnt = s.delayCnt := rfl
@[simp] theorem setLenLo_fault (b : Byte) : (s.setLenLo b).fault = s.fault := rfl
@[simp] theorem setLenLo_txLog (b : Byte) : (s.setLenLo b).txLog = s.txLog := rfl
@[simp] theorem setLenLo_evLog (b : Byte) : (s.setLenLo b).evLog = s.evLog := rfl
@[simp] theorem setLenLo_evPort (b : Byte) : (s.setLenLo b).evPort = s.evPort := rfl
@[simp] theorem setLenLo_rxHeld (b : Byte) : (s.setLenLo b).rxHeld = s.rxHeld := rfl
@[simp] theorem setLenLo_inputs (b : Byte) : (s.setLenLo b).inputs = s.inputs := rfl

end setLenLo

section setLength

@[simp] theorem setLength_cfg (length : Half) : (s.setLength length).cfg = s.cfg := rfl
@[simp] theorem setLength_phase (length : Half) : (s.setLength length).phase = s.phase := rfl
@[simp] theorem setLength_lenLo (length : Half) : (s.setLength length).lenLo = s.lenLo := rfl
@[simp] theorem setLength_rxLen (length : Half) : (s.setLength length).rxLen = length := rfl
@[simp] theorem setLength_rxCnt (length : Half) : (s.setLength length).rxCnt = 0 := rfl
@[simp] theorem setLength_body (length : Half) : (s.setLength length).body = s.body := rfl
@[simp] theorem setLength_txTarget (length : Half) : (s.setLength length).txTarget = s.txTarget := rfl
@[simp] theorem setLength_txIdx (length : Half) : (s.setLength length).txIdx = s.txIdx := rfl
@[simp] theorem setLength_delayCnt (length : Half) : (s.setLength length).delayCnt = s.delayCnt := rfl
@[simp] theorem setLength_fault (length : Half) : (s.setLength length).fault = s.fault := rfl
@[simp] theorem setLength_txLog (length : Half) : (s.setLength length).txLog = s.txLog := rfl
@[simp] theorem setLength_evLog (length : Half) : (s.setLength length).evLog = s.evLog := rfl
@[simp] theorem setLength_evPort (length : Half) : (s.setLength length).evPort = s.evPort := rfl
@[simp] theorem setLength_rxHeld (length : Half) : (s.setLength length).rxHeld = s.rxHeld := rfl
@[simp] theorem setLength_inputs (length : Half) : (s.setLength length).inputs = s.inputs := rfl

end setLength

section storeBody

@[simp] theorem storeBody_cfg (b : Byte) : (s.storeBody b).cfg = s.cfg := rfl
@[simp] theorem storeBody_phase (b : Byte) : (s.storeBody b).phase = s.phase := rfl
@[simp] theorem storeBody_lenLo (b : Byte) : (s.storeBody b).lenLo = s.lenLo := rfl
@[simp] theorem storeBody_rxLen (b : Byte) : (s.storeBody b).rxLen = s.rxLen := rfl
@[simp] theorem storeBody_rxCnt (b : Byte) : (s.storeBody b).rxCnt = s.rxCnt + 1 := rfl
@[simp] theorem storeBody_body (b : Byte) : (s.storeBody b).body = if s.rxCnt.toNat < s.cfg.bodyMax then s.body.write s.rxCnt.toNat b else s.body := rfl
@[simp] theorem storeBody_txTarget (b : Byte) : (s.storeBody b).txTarget = s.txTarget := rfl
@[simp] theorem storeBody_txIdx (b : Byte) : (s.storeBody b).txIdx = s.txIdx := rfl
@[simp] theorem storeBody_delayCnt (b : Byte) : (s.storeBody b).delayCnt = s.delayCnt := rfl
@[simp] theorem storeBody_fault (b : Byte) : (s.storeBody b).fault = s.fault := rfl
@[simp] theorem storeBody_txLog (b : Byte) : (s.storeBody b).txLog = s.txLog := rfl
@[simp] theorem storeBody_evLog (b : Byte) : (s.storeBody b).evLog = s.evLog := rfl
@[simp] theorem storeBody_evPort (b : Byte) : (s.storeBody b).evPort = s.evPort := rfl
@[simp] theorem storeBody_rxHeld (b : Byte) : (s.storeBody b).rxHeld = s.rxHeld := rfl
@[simp] theorem storeBody_inputs (b : Byte) : (s.storeBody b).inputs = s.inputs := rfl

end storeBody

section arm

@[simp] theorem arm_cfg (target ticks : Nat) : (s.arm target ticks).cfg = s.cfg := rfl
@[simp] theorem arm_phase (target ticks : Nat) : (s.arm target ticks).phase = .delay := rfl
@[simp] theorem arm_lenLo (target ticks : Nat) : (s.arm target ticks).lenLo = s.lenLo := rfl
@[simp] theorem arm_rxLen (target ticks : Nat) : (s.arm target ticks).rxLen = s.rxLen := rfl
@[simp] theorem arm_rxCnt (target ticks : Nat) : (s.arm target ticks).rxCnt = s.rxCnt := rfl
@[simp] theorem arm_body (target ticks : Nat) : (s.arm target ticks).body = s.body := rfl
@[simp] theorem arm_txTarget (target ticks : Nat) : (s.arm target ticks).txTarget = target := rfl
@[simp] theorem arm_txIdx (target ticks : Nat) : (s.arm target ticks).txIdx = s.txIdx := rfl
@[simp] theorem arm_delayCnt (target ticks : Nat) : (s.arm target ticks).delayCnt = ticks := rfl
@[simp] theorem arm_fault (target ticks : Nat) : (s.arm target ticks).fault = s.fault := rfl
@[simp] theorem arm_txLog (target ticks : Nat) : (s.arm target ticks).txLog = s.txLog := rfl
@[simp] theorem arm_evLog (target ticks : Nat) : (s.arm target ticks).evLog = s.evLog := rfl
@[simp] theorem arm_evPort (target ticks : Nat) : (s.arm target ticks).evPort = s.evPort := rfl
@[simp] theorem arm_rxHeld (target ticks : Nat) : (s.arm target ticks).rxHeld = s.rxHeld := rfl
@[simp] theorem arm_inputs (target ticks : Nat) : (s.arm target ticks).inputs = s.inputs := rfl

end arm

section countTick

@[simp] theorem countTick_cfg : (s.countTick).cfg = s.cfg := rfl
@[simp] theorem countTick_phase : (s.countTick).phase = s.phase := rfl
@[simp] theorem countTick_lenLo : (s.countTick).lenLo = s.lenLo := rfl
@[simp] theorem countTick_rxLen : (s.countTick).rxLen = s.rxLen := rfl
@[simp] theorem countTick_rxCnt : (s.countTick).rxCnt = s.rxCnt := rfl
@[simp] theorem countTick_body : (s.countTick).body = s.body := rfl
@[simp] theorem countTick_txTarget : (s.countTick).txTarget = s.txTarget := rfl
@[simp] theorem countTick_txIdx : (s.countTick).txIdx = s.txIdx := rfl
@[simp] theorem countTick_delayCnt : (s.countTick).delayCnt = s.delayCnt - 1 := rfl
@[simp] theorem countTick_fault : (s.countTick).fault = s.fault := rfl
@[simp] theorem countTick_txLog : (s.countTick).txLog = s.txLog := rfl
@[simp] theorem countTick_evLog : (s.countTick).evLog = s.evLog := rfl
@[simp] theorem countTick_evPort : (s.countTick).evPort = s.evPort := rfl
@[simp] theorem countTick_rxHeld : (s.countTick).rxHeld = s.rxHeld := rfl
@[simp] theorem countTick_inputs : (s.countTick).inputs = s.inputs := rfl

end countTick

section startTx

@[simp] theorem startTx_cfg : (s.startTx).cfg = s.cfg := rfl
@[simp] theorem startTx_phase : (s.startTx).phase = .tx := rfl
@[simp] theorem startTx_lenLo : (s.startTx).lenLo = s.lenLo := rfl
@[simp] theorem startTx_rxLen : (s.startTx).rxLen = s.rxLen := rfl
@[simp] theorem startTx_rxCnt : (s.startTx).rxCnt = s.rxCnt := rfl
@[simp] theorem startTx_body : (s.startTx).body = s.body := rfl
@[simp] theorem startTx_txTarget : (s.startTx).txTarget = s.txTarget := rfl
@[simp] theorem startTx_txIdx : (s.startTx).txIdx = 0 := rfl
@[simp] theorem startTx_delayCnt : (s.startTx).delayCnt = s.delayCnt := rfl
@[simp] theorem startTx_fault : (s.startTx).fault = s.fault := rfl
@[simp] theorem startTx_txLog : (s.startTx).txLog = s.txLog := rfl
@[simp] theorem startTx_evLog : (s.startTx).evLog = s.evLog := rfl
@[simp] theorem startTx_evPort : (s.startTx).evPort = s.evPort := rfl
@[simp] theorem startTx_rxHeld : (s.startTx).rxHeld = s.rxHeld := rfl
@[simp] theorem startTx_inputs : (s.startTx).inputs = s.inputs := rfl

end startTx

section send

@[simp] theorem send_cfg (b : Byte) : (s.send b).cfg = s.cfg := rfl
@[simp] theorem send_phase (b : Byte) : (s.send b).phase = s.phase := rfl
@[simp] theorem send_lenLo (b : Byte) : (s.send b).lenLo = s.lenLo := rfl
@[simp] theorem send_rxLen (b : Byte) : (s.send b).rxLen = s.rxLen := rfl
@[simp] theorem send_rxCnt (b : Byte) : (s.send b).rxCnt = s.rxCnt := rfl
@[simp] theorem send_body (b : Byte) : (s.send b).body = s.body := rfl
@[simp] theorem send_txTarget (b : Byte) : (s.send b).txTarget = s.txTarget := rfl
@[simp] theorem send_txIdx (b : Byte) : (s.send b).txIdx = s.txIdx + 1 := rfl
@[simp] theorem send_delayCnt (b : Byte) : (s.send b).delayCnt = s.delayCnt := rfl
@[simp] theorem send_fault (b : Byte) : (s.send b).fault = s.fault := rfl
@[simp] theorem send_txLog (b : Byte) : (s.send b).txLog = s.txLog ++ [b] := rfl
@[simp] theorem send_evLog (b : Byte) : (s.send b).evLog = s.evLog := rfl
@[simp] theorem send_evPort (b : Byte) : (s.send b).evPort = s.evPort := rfl
@[simp] theorem send_rxHeld (b : Byte) : (s.send b).rxHeld = s.rxHeld := rfl
@[simp] theorem send_inputs (b : Byte) : (s.send b).inputs = s.inputs := rfl

end send

section raiseTransportFailure

@[simp] theorem raiseTransportFailure_cfg : (s.raiseTransportFailure).cfg = s.cfg := rfl
@[simp] theorem raiseTransportFailure_phase : (s.raiseTransportFailure).phase = .halt := rfl
@[simp] theorem raiseTransportFailure_lenLo : (s.raiseTransportFailure).lenLo = s.lenLo := rfl
@[simp] theorem raiseTransportFailure_rxLen : (s.raiseTransportFailure).rxLen = s.rxLen := rfl
@[simp] theorem raiseTransportFailure_rxCnt : (s.raiseTransportFailure).rxCnt = s.rxCnt := rfl
@[simp] theorem raiseTransportFailure_body : (s.raiseTransportFailure).body = s.body := rfl
@[simp] theorem raiseTransportFailure_txTarget : (s.raiseTransportFailure).txTarget = s.txTarget := rfl
@[simp] theorem raiseTransportFailure_txIdx : (s.raiseTransportFailure).txIdx = s.txIdx := rfl
@[simp] theorem raiseTransportFailure_delayCnt : (s.raiseTransportFailure).delayCnt = s.delayCnt := rfl
@[simp] theorem raiseTransportFailure_fault : (s.raiseTransportFailure).fault = true := rfl
@[simp] theorem raiseTransportFailure_txLog : (s.raiseTransportFailure).txLog = s.txLog := rfl
@[simp] theorem raiseTransportFailure_evLog : (s.raiseTransportFailure).evLog = s.evLog := rfl
@[simp] theorem raiseTransportFailure_evPort : (s.raiseTransportFailure).evPort = s.evPort := rfl
@[simp] theorem raiseTransportFailure_rxHeld : (s.raiseTransportFailure).rxHeld = s.rxHeld := rfl
@[simp] theorem raiseTransportFailure_inputs : (s.raiseTransportFailure).inputs = s.inputs := rfl

end raiseTransportFailure

section resetBlock

@[simp] theorem resetBlock_cfg : (s.resetBlock).cfg = s.cfg := rfl
@[simp] theorem resetBlock_phase : (s.resetBlock).phase = .rxLen0 := rfl
@[simp] theorem resetBlock_lenLo : (s.resetBlock).lenLo = 0 := rfl
@[simp] theorem resetBlock_rxLen : (s.resetBlock).rxLen = 0 := rfl
@[simp] theorem resetBlock_rxCnt : (s.resetBlock).rxCnt = 0 := rfl
@[simp] theorem resetBlock_body : (s.resetBlock).body = [] := rfl
@[simp] theorem resetBlock_txTarget : (s.resetBlock).txTarget = 0 := rfl
@[simp] theorem resetBlock_txIdx : (s.resetBlock).txIdx = 0 := rfl
@[simp] theorem resetBlock_delayCnt : (s.resetBlock).delayCnt = 0 := rfl
@[simp] theorem resetBlock_fault : (s.resetBlock).fault = false := rfl
@[simp] theorem resetBlock_txLog : (s.resetBlock).txLog = [] := rfl
@[simp] theorem resetBlock_evLog : (s.resetBlock).evLog = [] := rfl
@[simp] theorem resetBlock_evPort : (s.resetBlock).evPort = none := rfl
@[simp] theorem resetBlock_rxHeld : (s.resetBlock).rxHeld = s.rxHeld := rfl
@[simp] theorem resetBlock_inputs : (s.resetBlock).inputs = s.inputs := rfl

end resetBlock

section beginCycle

@[simp] theorem beginCycle_cfg : (s.beginCycle).cfg = s.cfg := rfl
@[simp] theorem beginCycle_phase : (s.beginCycle).phase = s.phase := rfl
@[simp] theorem beginCycle_lenLo : (s.beginCycle).lenLo = s.lenLo := rfl
@[simp] theorem beginCycle_rxLen : (s.beginCycle).rxLen = s.rxLen := rfl
@[simp] theorem beginCycle_rxCnt : (s.beginCycle).rxCnt = s.rxCnt := rfl
@[simp] theorem beginCycle_body : (s.beginCycle).body = s.body := rfl
@[simp] theorem beginCycle_txTarget : (s.beginCycle).txTarget = s.txTarget := rfl
@[simp] theorem beginCycle_txIdx : (s.beginCycle).txIdx = s.txIdx := rfl
@[simp] theorem beginCycle_delayCnt : (s.beginCycle).delayCnt = s.delayCnt := rfl
@[simp] theorem beginCycle_fault : (s.beginCycle).fault = s.fault := rfl
@[simp] theorem beginCycle_txLog : (s.beginCycle).txLog = s.txLog := rfl
@[simp] theorem beginCycle_evLog : (s.beginCycle).evLog = s.evLog := rfl
@[simp] theorem beginCycle_evPort : (s.beginCycle).evPort = none := rfl
@[simp] theorem beginCycle_rxHeld : (s.beginCycle).rxHeld = s.rxHeld ++ s.cycleInput.arrive := rfl
@[simp] theorem beginCycle_inputs : (s.beginCycle).inputs = s.inputs.tail := rfl

end beginCycle

section consume

@[simp] theorem consume_cfg (a : Action) : (consume a s).cfg = s.cfg := by cases a <;> rfl
@[simp] theorem consume_phase (a : Action) : (consume a s).phase = s.phase := by cases a <;> rfl
@[simp] theorem consume_lenLo (a : Action) : (consume a s).lenLo = s.lenLo := by cases a <;> rfl
@[simp] theorem consume_rxLen (a : Action) : (consume a s).rxLen = s.rxLen := by cases a <;> rfl
@[simp] theorem consume_rxCnt (a : Action) : (consume a s).rxCnt = s.rxCnt := by cases a <;> rfl
@[simp] theorem consume_body (a : Action) : (consume a s).body = s.body := by cases a <;> rfl
@[simp] theorem consume_txTarget (a : Action) : (consume a s).txTarget = s.txTarget := by cases a <;> rfl
@[simp] theorem consume_txIdx (a : Action) : (consume a s).txIdx = s.txIdx := by cases a <;> rfl
@[simp] theorem consume_delayCnt (a : Action) : (consume a s).delayCnt = s.delayCnt := by cases a <;> rfl
@[simp] theorem consume_fault (a : Action) : (consume a s).fault = s.fault := by cases a <;> rfl
@[simp] theorem consume_txLog (a : Action) : (consume a s).txLog = s.txLog := by cases a <;> rfl
@[simp] theorem consume_evLog (a : Action) : (consume a s).evLog = s.evLog := by cases a <;> rfl
@[simp] theorem consume_evPort (a : Action) : (consume a s).evPort = s.evPort := by cases a <;> rfl
@[simp] theorem consume_inputs (a : Action) : (consume a s).inputs = s.inputs := by cases a <;> rfl
@[simp] theorem consume_rxByte_rxHeld (b : Byte) : (consume (.rxByte b) s).rxHeld = s.rxHeld.tail := rfl

end consume

section resetWith

variable (c : Cfg)

@[simp] theorem resetWith_cfg : (State.resetWith c).cfg = c := rfl
@[simp] theorem resetWith_phase : (State.resetWith c).phase = .rxLen0 := rfl
@[simp] theorem resetWith_lenLo : (State.resetWith c).lenLo = 0 := rfl
@[simp] theorem resetWith_rxLen : (State.resetWith c).rxLen = 0 := rfl
@[simp] theorem resetWith_rxCnt : (State.resetWith c).rxCnt = 0 := rfl
@[simp] theorem resetWith_body : (State.resetWith c).body = [] := rfl
@[simp] theorem resetWith_txTarget : (State.resetWith c).txTarget = 0 := rfl
@[simp] theorem resetWith_txIdx : (State.resetWith c).txIdx = 0 := rfl
@[simp] theorem resetWith_delayCnt : (State.resetWith c).delayCnt = 0 := rfl
@[simp] theorem resetWith_fault : (State.resetWith c).fault = false := rfl
@[simp] theorem resetWith_txLog : (State.resetWith c).txLog = [] := rfl
@[simp] theorem resetWith_evLog : (State.resetWith c).evLog = [] := rfl
@[simp] theorem resetWith_evPort : (State.resetWith c).evPort = none := rfl
@[simp] theorem resetWith_rxHeld : (State.resetWith c).rxHeld = [] := rfl
@[simp] theorem resetWith_inputs : (State.resetWith c).inputs = [] := rfl

end resetWith

end Sys2Proof.Machine
end

