-- ==== Sys2Proof/Laws/Step.lean ====
section
/-! SUPPORT. Once for each shared operation, everything it can do: reading the body, the meanings of the instructions, the step a cycle
selects, and one clock cycle. -/

namespace Sys2Proof.Machine

open Sys2Proof

/-- A run of bytes that the buffer holds is read as it stands. -/
theorem readRange_ok {s : State} {bytes : List Byte} {index : Nat}
    (hfit : index + bytes.length ≤ s.cfg.bodyMax)
    (hread : ∀ i (h : i < bytes.length), s.body.read (index + i) = some bytes[i]) :
    s.readRange index bytes.length = .ok bytes := by
  induction bytes generalizing index with
  | nil => rfl
  | cons b rest ih =>
    simp only [List.length_cons] at hfit
    have h0 : s.body.read index = some b := hread 0 (Nat.succ_pos _)
    have hrest : s.readRange (index + 1) rest.length = .ok rest := by
      refine ih (by omega) fun i hi => ?_
      have := hread (i + 1) (by simpa using hi)
      simpa [Nat.add_assoc, Nat.add_comm 1 i] using this
    simp [State.readRange, State.readBody, show index < s.cfg.bodyMax by omega, h0, hrest]

/-- What a read of a range answers: every byte of it is in the buffer. -/
theorem readRange_inv {s : State} {count index : Nat} {bytes : List Byte}
    (h : s.readRange index count = .ok bytes) :
    bytes.length = count ∧ ∀ i (hi : i < bytes.length),
      index + i < s.cfg.bodyMax ∧ s.body.read (index + i) = some bytes[i] := by
  induction count generalizing index bytes with
  | zero =>
    cases h
    exact ⟨rfl, fun i hi => absurd hi (Nat.not_lt_zero i)⟩
  | succ n ih =>
    simp only [State.readRange] at h
    split at h
    · cases h
    · next b hb =>
      split at h
      · cases h
      · next rest hrest =>
        cases h
        obtain ⟨hlen, hread⟩ := ih hrest
        have h0 : index < s.cfg.bodyMax ∧ s.body.read index = some b := by
          simp only [State.readBody] at hb
          split at hb
          · next hlt =>
            split at hb
            · next heq => exact ⟨hlt, heq.trans (congrArg some (Except.ok.inj hb))⟩
            · cases hb
          · cases hb
        refine ⟨by simp [hlen], fun i hi => ?_⟩
        cases i with
        | zero => simpa using h0
        | succ i =>
          have := hread i (by simpa using hi)
          simpa [Nat.add_assoc, Nat.add_comm 1 i] using this

/-- The packet of a complete body is that body (rule R114). -/
theorem BodyHolds.packet {s : State} {bytes : List Byte} (h : BodyHolds s bytes) : s.packet = .ok bytes := by
  rw [State.packet, h.length]
  exact readRange_ok (by simpa using h.fits) fun i hi => by simpa using h.holds i hi

/-- The packet of a state in whose buffer every byte below `rx_len` is written (rule R34(c)). -/
theorem bodyHolds_of_written {s : State} (hfit : s.rxLen.toNat ≤ s.cfg.bodyMax)
    (hw : ∀ i, i < s.rxLen.toNat → (s.body.read i).isSome) :
    ∃ bytes, BodyHolds s bytes := by
  refine ⟨(List.range s.rxLen.toNat).map fun i => (s.body.read i).getD 0, by simp, by simpa using hfit, fun i hi => ?_⟩
  simp only [List.length_map, List.length_range] at hi
  obtain ⟨b, hb⟩ := Option.isSome_iff_exists.1 (hw i hi)
  simp [hb]

/-- What the buffer holds depends on the length, the configuration and the buffer alone. -/
theorem BodyHolds.congr {s t : State} {bytes : List Byte} (h : BodyHolds s bytes) (hlen : t.rxLen = s.rxLen)
    (hcfg : t.cfg = s.cfg) (hbody : t.body = s.body) : BodyHolds t bytes :=
  ⟨hlen ▸ h.length, hcfg ▸ h.fits, fun i hi => hbody ▸ h.holds i hi⟩

theorem BodyHolds.beginCycle {s : State} {bytes : List Byte} (h : BodyHolds s bytes) : BodyHolds s.beginCycle bytes :=
  h.congr rfl rfl rfl

theorem BodyHolds.length_le {s : State} {bytes : List Byte} (h : BodyHolds s bytes) : bytes.length ≤ 65535 := by
  have := s.rxLen.isLt
  have := h.length
  omega

/-- The fetch of a complete body is its decoding (rule R145). -/
theorem fetch_of_holds {s : State} {type : Byte} {payload : List Byte} (h : BodyHolds s (type :: payload)) {row : Row}
    (hr : rowOf type = some row) : fetch s = .ok (row.instr type payload) := by
  have hlen := h.length_le
  simp only [List.length_cons] at hlen
  simp [fetch, h.packet, decodeBody_cons type payload (by simp [maxPayload]; omega) hr]

/-- Everything a meaning can do: it always answers a next state, in which at most one event is new, the phase is `RX_LEN0` or the
retransmission is armed, and nothing else has changed (rules R67, R145). -/
theorem exec_cases (i : Instr) (s : State) :
    exec i s = .next (s.setPhase .rxLen0)
      ∨ (∃ e, translations [e] = [] ∧ exec i s = .next ((s.emit e).setPhase .rxLen0))
      ∨ ∃ k j, s.cfg.trans k = some j
          ∧ exec i s = .next ((s.emit (.translate k j)).arm j s.cfg.delayTicks) := by
  have hresp : ∀ rep samples,
      (∃ e, translations [e] = [] ∧ classifyAndRespond rep samples s = .next ((s.emit e).setPhase .rxLen0))
      ∨ ∃ k j, s.cfg.trans k = some j
          ∧ classifyAndRespond rep samples s = .next ((s.emit (.translate k j)).arm j s.cfg.delayTicks) := by
    intro rep samples
    simp only [classifyAndRespond, respond]
    cases classify s.cfg samples with
    | none => exact .inl ⟨_, rfl, rfl⟩
    | some k =>
      cases hk : s.cfg.trans k with
      | none => exact .inl ⟨.matched k, rfl, by simp [hk]⟩
      | some j => exact .inr ⟨k, j, hk, by simp [hk]⟩
  have hrep : ∀ e, translations [e] = [] →
      report e s = .next (s.setPhase .rxLen0)
      ∨ (∃ e', translations [e'] = [] ∧ report e s = .next ((s.emit e').setPhase .rxLen0))
      ∨ ∃ k j, s.cfg.trans k = some j
          ∧ report e s = .next ((s.emit (.translate k j)).arm j s.cfg.delayTicks) :=
    fun e he => .inr (.inl ⟨e, he, rfl⟩)
  cases i with
  | message form => cases form <;> exact hrep _ rfl
  | received form =>
    cases form with
    | empty => exact hrep _ rfl
    | whole rep samples => exact .inr (hresp rep samples)
    | odd rep samples trailing =>
      simp only [exec, execReceived]
      cases s.cfg.oddPolicy with
      | reject => exact hrep _ rfl
      | ignore => exact .inr (hresp rep samples)
  | sendRequest payload => exact .inl rfl
  | sendResponse payload => exact .inl rfl
  | unknown80 low payload => exact hrep _ rfl
  | unknown40 low payload => exact hrep _ rfl
  | unknown20 low payload => exact hrep _ rfl
  | unknown10 low payload => exact hrep _ rfl
  | unknown08 low payload => exact hrep _ rfl
  | unknown04 low payload => exact hrep _ rfl

/-- Everything a clock cycle can do when it answers a next state (rules R51, R230). -/
theorem step_next {s t : State} (h : step s = .next t) :
    s.cfg.wf = true ∧
      ((s.cycleInput.rst = true ∧ t = s.beginCycle.resetBlock)
        ∨ (s.cycleInput.rst = false ∧ chooseStep s.cycleInput s.beginCycle = .idle ∧ t = s.beginCycle)
        ∨ ∃ a, s.cycleInput.rst = false ∧ chooseStep s.cycleInput s.beginCycle = .act a
            ∧ perform a (consume a s.beginCycle) = .next t) := by
  have hreset : ∀ c u, chooseStep c u ≠ .reset := by
    intro c u
    simp only [chooseStep, chooseRx]
    repeat' split
    all_goals simp
  simp only [step] at h
  split at h
  · next hwf =>
    refine ⟨hwf, ?_⟩
    simp only [choose] at h
    cases hrst : s.cycleInput.rst with
    | true => simp only [hrst, if_pos] at h; cases h; exact .inl ⟨rfl, rfl⟩
    | false =>
      simp only [hrst] at h
      cases hc : chooseStep s.cycleInput s.beginCycle with
      | reset => exact absurd hc (hreset _ _)
      | idle => simp [hc] at h; exact .inr (.inl ⟨rfl, rfl, h.symm⟩)
      | act a => simp [hc] at h; exact .inr (.inr ⟨a, rfl, rfl, h⟩)
  · cases h

/-- A cycle without reset in which a step is selected is that step. -/
theorem step_act {s : State} {a : Action} (hwf : s.cfg.wf = true) (hrst : s.cycleInput.rst = false)
    (hc : chooseStep s.cycleInput s.beginCycle = .act a) : step s = perform a (consume a s.beginCycle) := by
  simp [step, hwf, choose, hrst, hc]

/-- A cycle without reset in which no step is selected only takes the cycle's input. -/
theorem step_idle {s : State} (hwf : s.cfg.wf = true) (hrst : s.cycleInput.rst = false)
    (hc : chooseStep s.cycleInput s.beginCycle = .idle) : step s = .next s.beginCycle := by
  simp [step, hwf, choose, hrst, hc]

/-- The step a cycle selects, by phase: everything `chooseStep` can answer (rules R51, R210). -/
theorem chooseStep_act {c : CycleInput} {s : State} {a : Action} (h : chooseStep c s = .act a) :
    ((s.phase = .rxLen0 ∨ s.phase = .rxLen1 ∨ s.phase = .rxBody)
        ∧ ((c.xportFail = true ∧ a = .fail)
          ∨ (c.xportFail = false ∧ ∃ b rest, s.rxHeld = b :: rest ∧ a = .rxByte b)
          ∨ (c.xportFail = false ∧ s.rxHeld = [] ∧ c.rxTimeout = true ∧ a = .rxTimeout)))
      ∨ (s.phase = .dispatch ∧ c.dispatchBusy = false ∧ a = .dispatch)
      ∨ (s.phase = .delay ∧ s.delayCnt = 0 ∧ a = .delayDone)
      ∨ (s.phase = .delay ∧ 0 < s.delayCnt ∧ a = .tick)
      ∨ (s.phase = .tx ∧ ((c.xportFail = true ∧ a = .fail)
          ∨ (c.xportFail = false ∧ c.txReady = true ∧ a = .txByte))) := by
  have hrx : ∀ (_ : chooseRx c s = .act a),
      (c.xportFail = true ∧ a = .fail)
        ∨ (c.xportFail = false ∧ ∃ b rest, s.rxHeld = b :: rest ∧ a = .rxByte b)
        ∨ (c.xportFail = false ∧ s.rxHeld = [] ∧ c.rxTimeout = true ∧ a = .rxTimeout) := by
    intro hc
    simp only [chooseRx] at hc
    cases hf : c.xportFail with
    | true => simp [hf] at hc; exact .inl ⟨rfl, hc.symm⟩
    | false =>
      simp only [hf] at hc
      cases hh : s.rxHeld with
      | cons b rest => simp [hh] at hc; exact .inr (.inl ⟨rfl, b, rest, rfl, hc.symm⟩)
      | nil =>
        cases ht : c.rxTimeout with
        | true => simp [hh, ht] at hc; exact .inr (.inr ⟨rfl, rfl, rfl, hc.symm⟩)
        | false => simp [hh, ht] at hc
  simp only [chooseStep] at h
  cases hp : s.phase with
  | rxLen0 => simp only [hp] at h; exact .inl ⟨.inl rfl, hrx h⟩
  | rxLen1 => simp only [hp] at h; exact .inl ⟨.inr (.inl rfl), hrx h⟩
  | rxBody => simp only [hp] at h; exact .inl ⟨.inr (.inr rfl), hrx h⟩
  | dispatch =>
    cases hb : c.dispatchBusy with
    | true => simp [hp, hb] at h
    | false => simp [hp, hb] at h; exact .inr (.inl ⟨rfl, rfl, h.symm⟩)
  | delay =>
    by_cases hd : s.delayCnt = 0
    · simp [hp, hd] at h; exact .inr (.inr (.inl ⟨rfl, hd, h.symm⟩))
    · simp [hp, hd] at h; exact .inr (.inr (.inr (.inl ⟨rfl, by omega, h.symm⟩)))
  | tx =>
    refine .inr (.inr (.inr (.inr ⟨rfl, ?_⟩)))
    cases hf : c.xportFail with
    | true => simp [hp, hf] at h; exact .inl ⟨rfl, h.symm⟩
    | false =>
      cases hr : c.txReady with
      | true => simp [hp, hf, hr] at h; exact .inr ⟨rfl, rfl, h.symm⟩
      | false => simp [hp, hf, hr] at h
  | halt => simp [hp] at h

/-- What a byte received in `RX_BODY` leaves of the buffer: it joins the bytes already there (rule R114). -/
theorem storeBody_read (s : State) (b : Byte) (i : Nat) :
    (s.storeBody b).body.read i =
      if i = s.rxCnt.toNat ∧ s.rxCnt.toNat < s.cfg.bodyMax then some b else s.body.read i := by
  simp only [storeBody_body]
  by_cases h : s.rxCnt.toNat < s.cfg.bodyMax
  · simp [h, read_write]
  · simp [h]

/-- One of the three RX phases. -/
abbrev Receiving (s : State) : Prop := s.phase = .rxLen0 ∨ s.phase = .rxLen1 ∨ s.phase = .rxBody

theorem chooseStep_receiving {c : CycleInput} {s : State} (hp : Receiving s) : chooseStep c s = chooseRx c s := by
  rcases hp with hp | hp | hp <;> simp [chooseStep, hp]

theorem chooseRx_fail {c : CycleInput} {s : State} (hf : c.xportFail = true) : chooseRx c s = .act .fail := by
  simp [chooseRx, hf]

theorem chooseRx_byte {c : CycleInput} {s : State} {b : Byte} {rest : List Byte} (hf : c.xportFail = false)
    (hh : s.rxHeld = b :: rest) : chooseRx c s = .act (.rxByte b) := by
  simp [chooseRx, hf, hh]

theorem chooseRx_timeout {c : CycleInput} {s : State} (hf : c.xportFail = false) (hh : s.rxHeld = [])
    (ht : c.rxTimeout = true) : chooseRx c s = .act .rxTimeout := by
  simp [chooseRx, hf, hh, ht]

theorem chooseRx_idle {c : CycleInput} {s : State} (hf : c.xportFail = false) (hh : s.rxHeld = [])
    (ht : c.rxTimeout = false) : chooseRx c s = .idle := by
  simp [chooseRx, hf, hh, ht]

theorem chooseStep_byte {s : State} {b : Byte} {rest : List Byte} (hp : Receiving s) (hf : s.cycleInput.xportFail = false)
    (hh : s.beginCycle.rxHeld = b :: rest) : chooseStep s.cycleInput s.beginCycle = .act (.rxByte b) :=
  (chooseStep_receiving (s := s.beginCycle) hp).trans (chooseRx_byte hf hh)

theorem chooseStep_timeout {s : State} (hp : Receiving s) (hf : s.cycleInput.xportFail = false)
    (hh : s.beginCycle.rxHeld = []) (ht : s.cycleInput.rxTimeout = true) :
    chooseStep s.cycleInput s.beginCycle = .act .rxTimeout :=
  (chooseStep_receiving (s := s.beginCycle) hp).trans (chooseRx_timeout hf hh ht)

theorem rxByte_len0 {s : State} (b : Byte) (hp : s.phase = .rxLen0) :
    rxByte b s = { s with lenLo := b, phase := .rxLen1 } := by
  rw [rxByte, hp]
  rfl

theorem rxByte_len1 {s : State} (b : Byte) (hp : s.phase = .rxLen1) (h : (le16 s.lenLo b).toNat ≠ 0) :
    rxByte b s = { s with rxLen := le16 s.lenLo b, rxCnt := 0, phase := .rxBody } := by
  have hz : le16 s.lenLo b ≠ 0 := fun h' => h (by rw [h']; rfl)
  rw [rxByte, hp]
  simp only [rxLen1Byte, if_neg hz]
  rfl

theorem rxByte_len1_zero {s : State} (b : Byte) (hp : s.phase = .rxLen1) (h : (le16 s.lenLo b).toNat = 0) :
    rxByte b s = { s with rxLen := 0, rxCnt := 0, phase := .rxLen0 } := by
  have hz : le16 s.lenLo b = 0 := BitVec.eq_of_toNat_eq (by rw [h]; rfl)
  rw [rxByte, hp]
  simp only [rxLen1Byte, hz]
  rfl

theorem rxByte_body_more {s : State} (b : Byte) (hp : s.phase = .rxBody) (h : s.rxCnt.toNat + 1 ≠ s.rxLen.toNat) :
    rxByte b s = s.storeBody b := by
  rw [rxByte, hp]
  simp only [rxBodyByte, if_neg h]

theorem rxByte_body_last {s : State} (b : Byte) (hp : s.phase = .rxBody) (h : s.rxCnt.toNat + 1 = s.rxLen.toNat) :
    rxByte b s =
      (s.storeBody b).setPhase (if s.rxLen.toNat ≤ s.cfg.bodyMax then .dispatch else .rxLen0) := by
  rw [rxByte, hp]
  simp only [rxBodyByte, if_pos h]

theorem rxTimeout_receiving {s : State} (hp : Receiving s) : rxTimeout s = { s with phase := .rxLen0 } := by
  rcases hp with hp | hp | hp <;> rw [rxTimeout, hp] <;> cases s <;> simp_all [State.setPhase]

/-- Below the declared length the count of body bytes does not wrap (rule R26). -/
theorem rxCnt_succ {s : State} (h : s.rxCnt.toNat < s.rxLen.toNat) : (s.rxCnt + 1).toNat = s.rxCnt.toNat + 1 := by
  have := s.rxLen.isLt
  rw [BitVec.toNat_add, show (1 : BitVec 16).toNat = 1 from rfl]
  omega

/-- An accepted byte leaves the rest with the transport. -/
theorem consume_offered {s : State} {b : Byte} {rest : List Byte} (hh : s.rxHeld = b :: rest) :
    consume (.rxByte b) s = { s with rxHeld := rest } := by
  simp [consume, hh]

/-- What a cycle does once its input is taken depends on the state at its start: the two differ in the transport, the inputs to come
and the event port only. -/
theorem packet_beginCycle (s : State) : s.beginCycle.packet = s.packet := by
  have h : ∀ n index, s.beginCycle.readRange index n = s.readRange index n := by
    intro n
    induction n with
    | zero => intro index; rfl
    | succ n ih =>
      intro index
      simp only [State.readRange, ih]
      rfl
  exact h _ _

/-- The dispatch of a complete body is the meaning of what it decodes to (rule R145). -/
theorem dispatchStep_of_holds {s : State} {type : Byte} {payload : List Byte} (hp : s.phase = .dispatch)
    (h : BodyHolds s (type :: payload)) {row : Row} (hr : rowOf type = some row) :
    dispatchStep s = exec (row.instr type payload) s := by
  simp [dispatchStep, hp, fetch_of_holds h hr]

/-- What sending a byte of a frame answers (rule R135). -/
theorem sendFrom_lt {frame : List Byte} {s : State} (h : s.txIdx.toNat < frame.length) :
    sendFrom frame s =
      .next (if s.txIdx.toNat + 1 = frame.length then (s.send frame[s.txIdx.toNat]).setPhase .rxLen0
        else s.send frame[s.txIdx.toNat]) := by
  simp [sendFrom, List.getElem?_eq_getElem h]

/-- A sequence of steps, taken in two parts. -/
theorem runActions_append (first second : List Action) (s : State) :
    runActions (first ++ second) s =
      match runActions first s with
      | .next t => runActions second t
      | .fault r => .fault r
      | .refused r => .refused r := by
  induction first generalizing s with
  | nil => rfl
  | cons a rest ih =>
    simp only [List.cons_append, runActions]
    cases perform a s with
    | next t => exact ih t
    | fault r => rfl
    | refused r => rfl

theorem runActions_next {first second : List Action} {s t : State} (h : runActions first s = .next t) :
    runActions (first ++ second) s = runActions second t := by
  rw [runActions_append, h]

/-- The inputs and the arrivals of the coming cycles, counted from the next one. -/
theorem inputAt_zero (s : State) : s.inputAt 0 = s.cycleInput := by
  cases h : s.inputs <;> simp [State.inputAt, State.cycleInput, h]

theorem inputAt_succ {s t : State} (i : Nat) (h : t.inputs = s.inputs.tail) : t.inputAt i = s.inputAt (i + 1) := by
  simp [State.inputAt, h]

@[simp] theorem arrivals_zero (s : State) : s.arrivals 0 = [] := rfl

theorem arrivals_succ {s t : State} (n : Nat) (h : t.inputs = s.inputs.tail) :
    s.arrivals (n + 1) = s.cycleInput.arrive ++ t.arrivals n := by
  cases hs : s.inputs <;> simp [State.arrivals, State.cycleInput, h, hs]

/-- A run of the machine, first cycle first. -/
theorem run_succ {s t : State} (n : Nat) (h : step s = .next t) :
    Sys2Proof.core.run (n + 1) s = Sys2Proof.core.run n t := by
  have h' : Sys2Proof.core.step s = .next t := h
  simp only [Host.Core.run, h']

end Sys2Proof.Machine
end

