-- ==== Sys2Proof/Laws/Run.lean ====
section
/-! SUPPORT. What a step of the transition system can do to the outputs and the transport, what the delivery of a frame's bytes leaves,
runs cut at their last cycle, and the small laws of the terms of `Safety.lean`. -/

namespace Sys2Proof.Machine

open Sys2Proof

/-- Everything a step can do to the event log, the event port, the transport, the inputs to come and the flag: nothing, but for a failure, which
sets the flag, and a dispatch, which emits one event at most (rules R27, R56, R145). -/
theorem perform_events {a : Action} {s t : State} (h : perform a s = .next t) :
    (t.evLog = s.evLog ∧ t.evPort = s.evPort ∧ t.rxHeld = s.rxHeld ∧ t.inputs = s.inputs
        ∧ (t.fault = s.fault ∨ (a = .fail ∧ t.fault = true)))
      ∨ (a = .dispatch ∧ s.phase = .dispatch ∧ t.rxHeld = s.rxHeld ∧ t.inputs = s.inputs ∧ t.fault = s.fault
        ∧ ∃ e, t.evLog = s.evLog ++ [e] ∧ t.evPort = some e) := by
  cases a with
  | rxByte b =>
    cases h
    refine .inl ?_
    simp only [rxByte]
    split
    · simp [rxLen0Byte]
    · simp [rxLen1Byte]
    · simp only [rxBodyByte]
      split <;> simp
    all_goals simp
  | rxTimeout =>
    cases h
    refine .inl ?_
    simp only [rxTimeout]
    split <;> simp
  | fail =>
    cases h
    refine .inl ?_
    simp only [failStep]
    split <;> simp
  | tick =>
    cases h
    refine .inl ?_
    simp only [tick]
    repeat' split
    all_goals simp
  | delayDone =>
    cases h
    refine .inl ?_
    simp only [delayDone]
    repeat' split
    all_goals simp
  | txByte =>
    refine .inl ?_
    simp only [perform, txByte] at h
    repeat' split at h
    all_goals first | (cases h; done) | skip
    · simp only [sendFrom] at h
      split at h
      · cases h
      · cases h
        split <;> simp
    all_goals (cases h; simp)
  | dispatch =>
    simp only [perform, dispatchStep] at h
    repeat' split at h
    all_goals first | (cases h; done) | skip
    · next hp _ i _ =>
      rcases exec_cases i s with he | ⟨e, -, he⟩ | ⟨k, j, -, he⟩
      · rw [he] at h; cases h; exact .inl (by simp)
      · rw [he] at h; cases h; exact .inr (by simp [hp])
      · rw [he] at h; cases h; exact .inr (by simp [hp])
    all_goals (cases h; exact .inl (by simp))

/-- The step of a received byte leaves the transport, the inputs to come and the event port alone, and none of them matters to it. -/
theorem rxByte_env (b : Byte) (s : State) (held : List Byte) (inputs : List CycleInput) (port : Option Event) :
    rxByte b { s with rxHeld := held, inputs := inputs, evPort := port }
      = { rxByte b s with rxHeld := held, inputs := inputs, evPort := port } := by
  cases hp : s.phase <;>
    simp only [rxByte, hp, rxLen0Byte, rxLen1Byte, rxBodyByte, State.setLenLo, State.setPhase, State.setLength, State.storeBody]
  split <;> rfl

/-- The two length bytes of a frame that is not empty (rules R110, R112). -/
theorem deliver_len (s : State) (lo hi : Byte) (rest : List Action) (hp : s.phase = .rxLen0) (h : (le16 lo hi).toNat ≠ 0) :
    runActions (.rxByte lo :: .rxByte hi :: rest) s =
      runActions rest { s with lenLo := lo, rxLen := le16 lo hi, rxCnt := 0, phase := .rxBody } := by
  simp only [runActions, perform]
  rw [rxByte_len0 lo hp, rxByte_len1 (s := { s with lenLo := lo, phase := .rxLen1 }) hi rfl h]

/-- Body bytes that do not complete the frame: each is stored at its index, as far as the buffer goes (rules R114, R116). -/
theorem deliver_body (got : List Byte) : ∀ s : State, s.phase = .rxBody → s.rxCnt.toNat + got.length < s.rxLen.toNat →
    ∃ t, runActions (deliver got) s = .next t ∧ t.phase = .rxBody ∧ t.rxCnt.toNat = s.rxCnt.toNat + got.length
      ∧ t.rxLen = s.rxLen ∧ t.cfg = s.cfg ∧ t.evLog = s.evLog ∧ t.txLog = s.txLog ∧ t.fault = s.fault
      ∧ ∀ i, t.body.read i = if h : s.rxCnt.toNat ≤ i ∧ i < s.rxCnt.toNat + got.length ∧ i < s.cfg.bodyMax then
          some (got[i - s.rxCnt.toNat]'(by omega)) else s.body.read i := by
  induction got with
  | nil => intro s hp _; exact ⟨s, rfl, hp, by simp, rfl, rfl, rfl, rfl, rfl, fun i => by rw [dif_neg (by simp; omega)]⟩
  | cons b rest ih =>
    intro s hp hl
    simp only [List.length_cons] at hl
    have hc := rxCnt_succ (s := s) (by omega)
    obtain ⟨t, h1, h2, h3, h4, h5, h6, h7, h8, h9⟩ :=
      ih (s.storeBody b) hp (by rw [storeBody_rxCnt, hc, storeBody_rxLen]; omega)
    refine ⟨t, ?_, h2, ?_, h4, h5, h6, h7, h8, fun i => ?_⟩
    · simp only [deliver, List.map_cons, runActions, perform]
      rw [rxByte_body_more b hp (by omega)]
      exact h1
    · rw [h3, storeBody_rxCnt, hc, List.length_cons]
      omega
    · rw [h9, storeBody_read]
      simp only [storeBody_rxCnt, hc, storeBody_cfg, List.length_cons]
      by_cases hi : s.rxCnt.toNat = i
      · subst hi
        rw [dif_neg (by omega)]
        by_cases hm : s.rxCnt.toNat < s.cfg.bodyMax
        · simp [hm]
        · rw [dif_neg (by omega)]; simp [hm]
      · by_cases hx : s.rxCnt.toNat + 1 ≤ i ∧ i < s.rxCnt.toNat + 1 + rest.length ∧ i < s.cfg.bodyMax
        · rw [dif_pos hx, dif_pos (by omega)]
          obtain ⟨d, rfl⟩ : ∃ d, i = s.rxCnt.toNat + 1 + d := ⟨i - (s.rxCnt.toNat + 1), by omega⟩
          simp [show s.rxCnt.toNat + 1 + d - s.rxCnt.toNat = d + 1 by omega]
        · rw [dif_neg hx, dif_neg (by omega)]; simp [Ne.symm hi]

/-- A run, last cycle last. -/
theorem run_snoc : ∀ (n : Nat) (s t u : State),
    Sys2Proof.core.run n s = .next t → step t = .next u → Sys2Proof.core.run (n + 1) s = .next u
  | 0, s, t, u, h, h' => by cases h; rw [run_succ 0 h']; rfl
  | n + 1, s, t, u, h, h' => by
    cases hs : step s with
    | next v => rw [run_succ n hs] at h; rw [run_succ (n + 1) hs]; exact run_snoc n v t u h h'
    | fault r => have : Sys2Proof.core.step s = .fault r := hs
                 simp [Host.Core.run, this] at h
    | refused r => have : Sys2Proof.core.step s = .refused r := hs
                   simp [Host.Core.run, this] at h

/-- What arrives in one cycle more. -/
theorem arrivals_snoc (s : State) (n : Nat) : s.arrivals (n + 1) = s.arrivals n ++ (s.inputAt n).arrive := by
  simp only [State.arrivals, State.inputAt, List.getD]
  generalize s.inputs = inputs
  induction inputs generalizing n with
  | nil => simp
  | cons c rest ih =>
    cases n with
    | zero => simp
    | succ n => simp [ih n]

/-- What the coming cycle brings when `n` have been taken. -/
theorem cycleInput_drop {s t : State} {n : Nat} (h : t.inputs = s.inputs.drop n) : t.cycleInput = s.inputAt n := by
  simp only [State.cycleInput, State.inputAt, h]
  simp [List.headD_eq_head?_getD, List.head?_drop]

@[simp] theorem translations_append (first second : List Event) :
    translations (first ++ second) = translations first ++ translations second := by
  simp [translations]

@[simp] theorem framesOf_append (c : Cfg) (first second : List Nat) :
    framesOf c (first ++ second) = framesOf c first ++ framesOf c second := by
  simp [framesOf]

theorem txBytes_ok {c : Cfg} {target : Nat} {frame : List Byte} (h : txFrame c target = .ok frame) : txBytes c target = frame := by
  simp [txBytes, h]

/-- Below the length of a frame the index of the next byte does not wrap (rule R26). -/
theorem txIdx_succ {index : BitVec 17} (h : index.toNat < 65536) : (index + 1).toNat = index.toNat + 1 := by
  rw [BitVec.toNat_add, show (1 : BitVec 17).toNat = 1 from rfl]
  omega

@[simp] theorem given_cycleInput (s : State) (c : CycleInput) : (s.given c).cycleInput = c := rfl

/-- A run under a schedule, one cycle more. -/
theorem runUnder_succ {env : Schedule} {n : Nat} {s t : State} (h : runUnder env n s = .next t) :
    runUnder env (n + 1) s = step (t.given (env n)) := by
  simp only [runUnder, h]

@[simp] theorem arrivalsUnder_zero (env : Schedule) : arrivalsUnder env 0 = [] := rfl

theorem arrivalsUnder_succ (env : Schedule) (n : Nat) :
    arrivalsUnder env (n + 1) = arrivalsUnder env n ++ (env n).arrive := by
  simp [arrivalsUnder, List.range_succ]

/-- What a meaning does with the inputs to come: it keeps them, whatever they are. -/
theorem exec_inputs (i : Instr) (s : State) (inputs : List CycleInput) {t : State} (h : exec i s = .next t) :
    exec i { s with inputs := inputs } = .next { t with inputs := inputs } := by
  have hc : ∀ rep samples, classifyAndRespond rep samples s = .next t →
      classifyAndRespond rep samples { s with inputs := inputs } = .next { t with inputs := inputs } := by
    intro rep samples h
    simp only [classifyAndRespond, respond] at h ⊢
    cases hr : classify s.cfg samples with
    | none => simp only [hr] at h ⊢; cases h; rfl
    | some k =>
      simp only [hr] at h ⊢
      cases ht : s.cfg.trans k with
      | none => simp only [ht] at h ⊢; cases h; rfl
      | some j => simp only [ht] at h ⊢; cases h; rfl
  cases i with
  | message form => cases form <;> (cases h; rfl)
  | received form =>
    cases form with
    | empty => cases h; rfl
    | whole rep samples => exact hc rep samples h
    | odd rep samples trailing =>
      simp only [exec, execReceived] at h ⊢
      cases hp : s.cfg.oddPolicy with
      | reject => simp only [hp] at h ⊢; cases h; rfl
      | ignore => simp only [hp] at h ⊢; exact hc rep samples h
  | _ => cases h; rfl

/-- The fetch does not read the inputs to come. -/
theorem fetch_inputs (s : State) (inputs : List CycleInput) : fetch { s with inputs := inputs } = fetch s := by
  have h : ∀ n index, State.readRange { s with inputs := inputs } index n = s.readRange index n := by
    intro n
    induction n with
    | zero => intro index; rfl
    | succ n ih =>
      intro index
      simp only [State.readRange, ih]
      rfl
  simp only [fetch, show State.packet { s with inputs := inputs } = s.packet from h _ _]

/-- A step of the transition system neither reads nor writes the inputs to come. -/
theorem perform_inputs {a : Action} {s t : State} (inputs : List CycleInput) (h : perform a s = .next t) :
    perform a { s with inputs := inputs } = .next { t with inputs := inputs } := by
  obtain ⟨cfg, phase, lenLo, rxLen, rxCnt, body, txTarget, txIdx, delayCnt, fault, txLog, evLog, evPort, rxHeld, ins⟩ := s
  cases a with
  | rxByte b =>
    cases h
    cases phase <;> try rfl
    simp only [perform, rxByte, rxBodyByte, State.storeBody, State.setPhase]
    split <;> rfl
  | rxTimeout => cases h; cases phase <;> rfl
  | fail => cases h; cases phase <;> rfl
  | tick =>
    cases h
    cases phase <;> try rfl
    simp only [perform, tick]
    split <;> rfl
  | delayDone =>
    cases h
    cases phase <;> try rfl
    simp only [perform, delayDone]
    split <;> rfl
  | txByte =>
    cases phase <;> try (cases h; rfl)
    simp only [perform, txByte] at h ⊢
    cases hf : txFrame cfg txTarget with
    | error e => cases e <;> simp [hf] at h
    | ok frame =>
      simp only [hf, sendFrom] at h ⊢
      cases hb : frame[txIdx.toNat]? with
      | none => simp [hb] at h
      | some b =>
        simp only [hb] at h ⊢
        cases h
        split <;> rfl
  | dispatch =>
    cases phase <;> try (cases h; rfl)
    simp only [perform, dispatchStep] at h ⊢
    split at h
    · next i hf =>
      have hf' : fetch ⟨cfg, .dispatch, lenLo, rxLen, rxCnt, body, txTarget, txIdx, delayCnt, fault, txLog, evLog, evPort, rxHeld,
          inputs⟩ = .ok i := (fetch_inputs _ inputs).trans hf
      simp only [hf']
      exact exec_inputs i _ inputs h
    · cases h

/-- A clock cycle reads its own input and no later one. -/
theorem step_inputs {s t : State} {c : CycleInput} (rest : List CycleInput) (h : step (s.given c) = .next t) :
    step { s with inputs := c :: rest } = .next { t with inputs := rest } := by
  obtain ⟨hwf, ⟨hr, rfl⟩ | ⟨hr, hc, rfl⟩ | ⟨a, hr, hc, h⟩⟩ := step_next h
  · have hr' : c.rst = true := hr
    have hwf' : s.cfg.wf = true := hwf
    simp [step, hwf', choose, State.cycleInput, hr']
    rfl
  · exact (step_idle (s := { s with inputs := c :: rest }) hwf hr hc)
  · refine (step_act (s := { s with inputs := c :: rest }) hwf hr hc).trans ?_
    have := perform_inputs rest h
    cases a <;> exact this

/-- A run under a schedule is the run whose inputs are the first inputs of the schedule. -/
theorem run_of_runUnder {env : Schedule} : ∀ (n : Nat) (s t : State) (rest : List CycleInput),
    runUnder env n s = .next t →
    Sys2Proof.core.run n { s with inputs := (List.range n).map env ++ rest } = .next { t with inputs := rest }
  | 0, s, t, rest, h => by cases h; rfl
  | n + 1, s, t, rest, h => by
    simp only [runUnder] at h
    cases hu : runUnder env n s with
    | next u =>
      simp only [hu] at h
      have h' := run_of_runUnder n s u (env n :: rest) hu
      rw [List.range_succ, List.map_append, List.append_assoc]
      exact run_snoc n _ _ _ h' (step_inputs rest h)
    | fault r => simp [hu] at h
    | refused r => simp [hu] at h

end Sys2Proof.Machine
end

