-- ==== Sys2Proof/Tests/Slice0.lean ====
section
/-! SUPPORT. The model's own tests: well-formedness, words written out from the spec's encodings, single steps against the vectors of
95_test_vectors.md, and for each obligation with hypotheses a state and operands that meet them, at the boundaries of each clause. -/

namespace Sys2Proof.Tests

open Sys2Proof Sys2Proof.Machine

/-- So many zeros. -/
def zeros (α : Type) [OfNat α 0] (n : Nat) : List α := List.replicate n 0

theorem zeros_length (α : Type) [OfNat α 0] (n : Nat) : (zeros α n).length = n := List.length_replicate

/-! Small states. -/

/-- A configuration with one empty reference that translates to itself and no delay: `TXFRAME(0)` is `02 00 02 14` (V-ENC-10). -/
def tiny : Cfg := { Cfg.t7 with table := [⟨"z", [], some 0⟩], clkHz := 0 }

/-- The instance of the vectors V-RX-9 and V-RX-10. -/
def small : Cfg := { Cfg.t7 with bodyMax := 4 }

/-- `T7` under the other policy (V-DSP-8). -/
def ignoring : Cfg := { Cfg.t7 with oddPolicy := .ignore }

/-- A body complete in the buffer under a configuration. -/
def holdingIn (c : Cfg) (bytes : List Byte) : State :=
  { State.resetWith c with
    phase := .dispatch
    rxLen := BitVec.ofNat 16 bytes.length
    rxCnt := BitVec.ofNat 16 bytes.length
    body := Memory.writeAll [] 0 bytes }

/-- A body complete in the buffer under `T7`. -/
def holding (bytes : List Byte) : State := holdingIn Cfg.t7 bytes

/-- A phase, the bytes the transport holds, and one coming cycle. -/
def waiting (phase : Phase) (held : List Byte) (c : CycleInput) : State :=
  { State.reset with phase := phase, rxHeld := held, inputs := [c] }

/-- `TX` at an index of `TXFRAME(6)` (V-ENC-8). -/
def sendingAt (index : BitVec 17) (c : CycleInput) : State :=
  { waiting .tx [] c with txTarget := 6, txIdx := index }

/-- In `RX_BODY` with `got` received of `length` bytes. -/
def receivingBody (cfg : Cfg) (length : Half) (got held : List Byte) : State :=
  { State.resetWith cfg with
    phase := .rxBody
    rxLen := length
    rxCnt := BitVec.ofNat 16 got.length
    body := Memory.writeAll [] 0 got
    rxHeld := held }

/-- A part of the state an outcome answers. -/
def after {α : Type} (o : Host.Outcome State Fault Refusal) (f : State → α) : Option α :=
  match o with
  | .next s => some (f s)
  | .fault _ => none
  | .refused _ => none

/-- The state an outcome answers, or `s`. -/
def stateOf (o : Host.Outcome State Fault Refusal) (s : State) : State := (after o id).getD s

theorem next_stateOf {o : Host.Outcome State Fault Refusal} (s : State) (h : (after o fun _ => true) = some true) :
    o = .next (stateOf o s) := by
  cases o with
  | next t => rfl
  | fault r => cases h
  | refused r => cases h

theorem holdingIn_holds {c : Cfg} {bytes : List Byte} (h : bytes.length ≤ 65535) (hfit : bytes.length ≤ c.bodyMax) :
    BodyHolds (holdingIn c bytes) bytes where
  length := by simp [holdingIn]; omega
  fits := hfit
  holds := fun i hi => by
    show (Memory.writeAll [] 0 bytes).read i = _
    rw [read_writeAll, dif_pos (by omega)]
    rfl

theorem holdingIn_dispatches {c : Cfg} {bytes : List Byte} (hwf : c.wf = true) (h : bytes.length ≤ 65535)
    (hfit : bytes.length ≤ c.bodyMax) : Dispatches (holdingIn c bytes) bytes :=
  ⟨hwf, rfl, rfl, rfl, holdingIn_holds h hfit⟩

/-! Configurations (rule R9): `T7` and the others are well-formed, and one that is not for each condition. -/

theorem test_cfg_wf : Cfg.t7.wf = true ∧ tiny.wf = true ∧ small.wf = true ∧ ignoring.wf = true := by decide

theorem test_cfg_duration_too_long : ({ Cfg.t7 with table := [⟨"x", [65536], none⟩] } : Cfg).wf = false := by decide

theorem test_cfg_target_outside : ({ Cfg.t7 with table := [⟨"x", [1], some 1⟩] } : Cfg).wf = false := by decide

theorem test_cfg_target_too_long :
    ({ Cfg.t7 with table := [⟨"x", zeros Nat 32767, some 0⟩] } : Cfg).wf = false := by
  have h : ({ Cfg.t7 with table := [⟨"x", zeros Nat 32767, some 0⟩] } : Cfg).targetsFit = false := by
    simp [Cfg.targetsFit, Cfg.targetFits, Cfg.len, Cfg.code, zeros_length]
  simp [Cfg.wf, h]

theorem test_cfg_no_body : ({ Cfg.t7 with bodyMax := 0 } : Cfg).wf = false
    ∧ ({ Cfg.t7 with bodyMax := 65536 } : Cfg).wf = false := by decide

theorem test_cfg_constants : ({ Cfg.t7 with tolerance := 99 } : Cfg).wf = false
    ∧ ({ Cfg.t7 with txRepeat := 21 } : Cfg).wf = false ∧ ({ Cfg.t7 with refW := 8 } : Cfg).wf = false := by decide

/-! Instructions (rules R87, R146, R148): the longest that fits and the shortest that does not. -/

theorem test_wf_message : (Instr.message (.full 0 0 (zeros Byte 65532))).wf = true
    ∧ (Instr.message (.full 0 0 (zeros Byte 65533))).wf = false := by
  simp [Instr.wf, MessageForm.wf, maxPayload, zeros_length]

theorem test_wf_received : (Instr.received (.whole 0 (zeros Half 32766))).wf = true
    ∧ (Instr.received (.whole 0 (zeros Half 32767))).wf = false
    ∧ (Instr.received (.odd 0 (zeros Half 32766) 0)).wf = true
    ∧ (Instr.received (.odd 0 (zeros Half 32767) 0)).wf = false := by
  simp [Instr.wf, ReceivedForm.wf, maxPayload, zeros_length]

theorem test_wf_requests : (Instr.sendRequest (zeros Byte 65534)).wf = true
    ∧ (Instr.sendRequest (zeros Byte 65535)).wf = false
    ∧ (Instr.sendResponse (zeros Byte 65535)).wf = false := by
  simp [Instr.wf, maxPayload, zeros_length]

theorem test_wf_unknown : (Instr.unknown80 0 (zeros Byte 65535)).wf = false
    ∧ (Instr.unknown40 0 (zeros Byte 65535)).wf = false ∧ (Instr.unknown20 0 (zeros Byte 65535)).wf = false
    ∧ (Instr.unknown10 0 (zeros Byte 65535)).wf = false ∧ (Instr.unknown08 0 (zeros Byte 65535)).wf = false
    ∧ (Instr.unknown04 0 (zeros Byte 65535)).wf = false := by
  simp [Instr.wf, maxPayload, zeros_length]

/-! Words, bit by bit: length low byte, length high byte, type, payload (rules R80 to R86, R96). -/

/-- V-DSP-1. -/
theorem test_decode_message :
    decodeFrame [0b00000101, 0b00000000, 0b00000000, 0b00000001, 0b00000010, 0b01101000, 0b01101001]
      = .ok (.message (.full 1 2 [0x68, 0x69]), []) := by rfl

/-- V-DSP-3. -/
theorem test_decode_message_short :
    decodeFrame [0b00000010, 0b00000000, 0b00000000, 0b00000001] = .ok (.message (.short (some 1)), []) := by rfl

/-- V-DSP-18: the samples are low byte first. -/
theorem test_decode_received :
    decodeFrame [0b00001010, 0b00000000, 0b00000001, 0b00001001, 0b10010010, 0b00001001, 0b10001010, 0b00000010,
        0b01111110, 0b00000100, 0b01011000, 0b00000010]
      = .ok (.received (.whole 9 [2450, 650, 1150, 600]), []) := by rfl

/-- V-DSP-7: the byte that pairs with nothing. -/
theorem test_decode_received_odd :
    decodeFrame [0b00000101, 0b00000000, 0b00000001, 0b00000100, 0b11110100, 0b00000001, 0b01110111]
      = .ok (.received (.odd 4 [500] 0x77), []) := by rfl

/-- V-DSP-12, V-DSP-15. -/
theorem test_decode_requests :
    decodeFrame [0b00000100, 0b00000000, 0b00000010, 0b00010100, 0b00010000, 0b00100111]
        = .ok (.sendRequest [0x14, 0x10, 0x27], [])
      ∧ decodeFrame [0b00000001, 0b00000000, 0b00000011] = .ok (.sendResponse [], []) := ⟨by rfl, by rfl⟩

/-- V-DSP-16, V-DSP-17, and a type of each other row. -/
theorem test_decode_unknown :
    decodeBody [0b11111111, 0xDE, 0xAD] = .ok (.unknown80 0b1111111 [0xDE, 0xAD])
      ∧ decodeBody [0b01000001] = .ok (.unknown40 0b000001 [])
      ∧ decodeBody [0b00110000] = .ok (.unknown20 0b10000 [])
      ∧ decodeBody [0b00011010] = .ok (.unknown10 0b1010 [])
      ∧ decodeBody [0b00001011] = .ok (.unknown08 0b011 [])
      ∧ decodeBody [0b00000100] = .ok (.unknown04 0b00 []) := ⟨by rfl, by rfl, by rfl, by rfl, by rfl, by rfl⟩

/-- What is no frame is refused by name (rules R88, R94, R113). -/
theorem test_decode_refuses :
    decodeFrame [5] = .error .partialLength ∧ decodeFrame [0, 0, 1] = .error .zeroLength
      ∧ decodeFrame [2, 0, 4] = .error .shortBody ∧ decodeBody [] = .error .noType := ⟨by rfl, by rfl, by rfl, by rfl⟩

/-- V-ENC-1, V-ENC-2. -/
theorem test_encode : encodeFrame 0 [] = .ok [0x01, 0x00, 0x00] ∧ encodeFrame 7 [0xAB] = .ok [0x02, 0x00, 0x07, 0xAB] :=
  ⟨by rfl, by rfl⟩

/-- V-ENC-4, V-ENC-6, V-ENC-7: the length bytes of 256 and of 65535, low byte first, and the first payload that is too long. -/
theorem test_encode_long (payload : List Byte) :
    (payload.length = 255 → encodeFrame 9 payload = .ok (0x00 :: 0x01 :: 0x09 :: payload))
      ∧ (payload.length = 65534 → encodeFrame 2 payload = .ok (0xFF :: 0xFF :: 0x02 :: payload))
      ∧ (payload.length = 65535 → encodeFrame 2 payload = .error .payloadTooLong) := by
  refine ⟨fun h => ?_, fun h => ?_, fun h => ?_⟩ <;> simp [encodeFrame, h, maxPayload, lo8, hi8]

/-- V-ENC-8, V-ENC-10. -/
theorem test_txFrame :
    txFrame Cfg.t7 6 = .ok [0x0E, 0x00, 0x02, 0x14, 0x48, 0x0D, 0xA4, 0x06, 0xA4, 0x01, 0xA4, 0x01, 0xA4, 0x01, 0xF6, 0x04]
      ∧ txFrame tiny 0 = .ok [0x02, 0x00, 0x02, 0x14] := ⟨by rfl, by rfl⟩

/-- Each row's value, alone, is that row's instruction (spec/opcode_table.json, rule R96). -/
theorem test_table_words :
    decodeTableWord 8 0x00 = some (.message (.full 0 0 [])) ∧ decodeTableWord 8 0x01 = some (.received (.whole 0 []))
      ∧ decodeTableWord 8 0x02 = some (.sendRequest []) ∧ decodeTableWord 8 0x03 = some (.sendResponse [])
      ∧ decodeTableWord 8 0x80 = some (.unknown80 0 []) ∧ decodeTableWord 8 0x40 = some (.unknown40 0 [])
      ∧ decodeTableWord 8 0x20 = some (.unknown20 0 []) ∧ decodeTableWord 8 0x10 = some (.unknown10 0 [])
      ∧ decodeTableWord 8 0x08 = some (.unknown08 0 []) ∧ decodeTableWord 8 0x04 = some (.unknown04 0 []) := by decide

/-- The first step after reset runs the frame that is placed. -/
theorem test_first_step :
    after (step (State.reset.withFetchWord 8 0x00)) (·.evLog) = some [.message 0 0 []]
      ∧ after (step (State.reset.withFetchWord 8 0x01)) (·.evLog) = some [.noMatch 0 0 []]
      ∧ after (step (State.reset.withFetchWord 8 0x02)) (·.phase) = some .rxLen0
      ∧ after (step (State.reset.withFetchWord 8 0x03)) (·.phase) = some .rxLen0
      ∧ after (step (State.reset.withFetchWord 8 0x80)) (·.evLog) = some [.unknownType 0x80 []]
      ∧ after (step (State.reset.withFetchWord 8 0x04)) (·.evLog) = some [.unknownType 0x04 []] := by decide

/-! The receive half, one step at a time. -/

/-- V-RX-3, V-RX-5: which byte of a length is the low one. -/
theorem test_rx_length :
    after (step { waiting .rxLen1 [1] {} with lenLo := 0 }) (fun t => (t.rxLen, t.phase)) = some (256, .rxBody)
      ∧ after (step (waiting .rxLen1 [0] {})) (fun t => (t.rxLen, t.phase)) = some (0, .rxLen0) := by decide

/-- V-RX-10: the last byte of a body as long as the buffer. V-RX-9: of one that is longer. -/
theorem test_rx_last :
    after (step (receivingBody small 4 [4, 1, 2] [3])) (fun t => (t.phase, t.body.read 3)) = some (.dispatch, some 3)
      ∧ after (step (receivingBody small 6 [4, 1, 2, 3, 4] [5])) (fun t => (t.phase, t.rxCnt, t.body.read 5))
        = some (.rxLen0, 6, none) := by decide

/-- V-RX-6, its short read. -/
theorem test_rx_short :
    after (step { receivingBody Cfg.t7 10 [1, 2, 3, 4, 5] [] with inputs := [{ rxTimeout := true }] })
      (fun t => (t.phase, t.rxLen, t.rxCnt, t.evLog)) = some (.rxLen0, 10, 5, []) := by decide

/-- V-EXC-6 and V-EXC-7: a failure over a byte, a byte over a timeout. -/
theorem test_priority :
    after (step { receivingBody Cfg.t7 2 [4] [9] with inputs := [{ rxTimeout := true }] }) (fun t => (t.phase, t.rxHeld))
        = some (.dispatch, [])
      ∧ after (step { receivingBody Cfg.t7 2 [4] [9] with inputs := [{ xportFail := true }] })
          (fun t => (t.phase, t.fault, t.rxHeld)) = some (.halt, true, [9]) := by decide

/-! The dispatcher and the responder, by the vectors. -/

/-- V-DSP-1, V-DSP-4. -/
theorem test_message :
    after (step (holding [0, 1, 2, 0x68, 0x69])) (fun t => (t.evLog, t.phase)) = some ([.message 1 2 [0x68, 0x69]], .rxLen0)
      ∧ after (step (holding [0])) (·.evLog) = some [.malformed 0 []] := by decide

/-- V-DSP-5, V-DSP-6, V-DSP-7, V-DSP-8. -/
theorem test_received_forms :
    after (step (holding [1])) (·.evLog) = some [.malformed 1 []]
      ∧ after (step (holding [1, 3])) (·.evLog) = some [.noMatch 3 0 []]
      ∧ after (step (holding [1, 4, 0xF4, 0x01, 0x77])) (·.evLog) = some [.malformed 1 [4, 0xF4, 0x01, 0x77]]
      ∧ after (step (holdingIn ignoring [1, 4, 0xF4, 0x01, 0x77])) (·.evLog) = some [.matched 4] := by decide

/-- V-DSP-18, V-RSP-7: the retransmission is armed, nothing is sent yet. -/
theorem test_received_translates :
    after (step (holding [1, 9, 0x92, 0x09, 0x8A, 0x02, 0x7E, 0x04, 0x58, 0x02]))
      (fun t => (t.evLog, t.txTarget, t.delayCnt, t.phase, t.txLog)) = some ([.translate 3 1], 1, 3, .delay, []) := by decide

/-- V-DSP-12, V-DSP-15: no event. -/
theorem test_requests :
    after (step (holding [2, 0x14, 0x10, 0x27])) (fun t => (t.evLog, t.phase)) = some ([], .rxLen0)
      ∧ after (step (holding [3, 1, 2, 3])) (fun t => (t.evLog, t.phase)) = some ([], .rxLen0) := by decide

/-- V-DSP-17, and a type of each other row: the whole type byte is reported. -/
theorem test_unknown :
    after (step (holding [0xFF, 0xDE, 0xAD])) (·.evLog) = some [.unknownType 255 [0xDE, 0xAD]]
      ∧ after (step (holding [0x41])) (·.evLog) = some [.unknownType 0x41 []]
      ∧ after (step (holding [0x30])) (·.evLog) = some [.unknownType 0x30 []]
      ∧ after (step (holding [0x1A])) (·.evLog) = some [.unknownType 0x1A []]
      ∧ after (step (holding [0x0B])) (·.evLog) = some [.unknownType 0x0B []]
      ∧ after (step (holding [0x04])) (·.evLog) = some [.unknownType 0x04 []] := by decide

/-- V-CLS-1, V-CLS-2, V-CLS-15, V-CLS-16: the tolerance is inclusive, at the first position and the last. -/
theorem test_classify_tolerance :
    classify Cfg.t7 [2500, 600, 1200, 600] = some 3 ∧ classify Cfg.t7 [2501, 600, 1200, 600] = none
      ∧ classify Cfg.t7 [2400, 600, 1200, 500] = some 3 ∧ classify Cfg.t7 [2400, 600, 1200, 499] = none := by decide

/-- V-CLS-20, V-CLS-22: the earlier reference wins over the closer one. V-CLS-23, V-CLS-25: other lengths. V-CLS-32: no wrap. -/
theorem test_classify_first :
    classify Cfg.t7 [9050, 4500, 560, 560, 560, 1690, 560] = some 0
      ∧ classify Cfg.t7 [9101, 4500, 560, 560, 560, 1690, 560] = some 2
      ∧ classify Cfg.t7 [9000, 4500, 560, 560, 560, 1690] = none ∧ classify Cfg.t7 [] = none
      ∧ classify Cfg.t7 [0, 0] = none := by decide

/-- V-RSP-7: a tick, the end of the delay, and the first and the last byte. -/
theorem test_retransmission :
    after (step { waiting .delay [] {} with delayCnt := 3 }) (fun t => (t.phase, t.delayCnt)) = some (.delay, 2)
      ∧ after (step { waiting .delay [] {} with txIdx := 9 }) (fun t => (t.phase, t.txIdx)) = some (.tx, 0)
      ∧ after (step (sendingAt 0 { txReady := true })) (fun t => (t.txLog, t.txIdx, t.phase)) = some ([0x0E], 1, .tx)
      ∧ after (step (sendingAt 15 { txReady := true })) (fun t => (t.txLog, t.txIdx, t.phase)) = some ([0x04], 16, .rxLen0) := by
  decide

/-- V-EXC-2, V-RST-2: `HALT` ends by reset alone. -/
theorem test_halt :
    after (step { waiting .halt [7] { rxTimeout := true, txReady := true, xportFail := true } with fault := true })
        (fun t => (t.phase, t.fault, t.rxHeld)) = some (.halt, true, [7])
      ∧ after (step { waiting .halt [7] { rst := true } with fault := true })
        (fun t => (t.phase, t.fault, t.rxHeld)) = some (.rxLen0, false, [7]) := by decide

/-! Witnesses: what meets the hypotheses of each obligation that has some. -/

theorem test_witness_ResetLeavesTheSpecValues :
    (State.reset = State.reset ∨ ∃ c, State.reset = State.resetWith c)
      ∧ (State.resetWith tiny = State.reset ∨ ∃ c, State.resetWith tiny = State.resetWith c) :=
  ⟨.inl rfl, .inr ⟨tiny, rfl⟩⟩

theorem test_witness_ResetCycleRestoresTheResetState :
    (waiting .halt [7] { rst := true }).cfg.wf = true ∧ (waiting .halt [7] { rst := true }).cycleInput.rst = true
      ∧ ∃ t, step (waiting .halt [7] { rst := true }) = .next t ∧ (waiting .halt [7] { rst := true }).phase = .halt
          ∧ t.phase ≠ .halt :=
  ⟨by decide, rfl, _, next_stateOf State.reset (by decide), rfl, by decide⟩

theorem test_witness_WellFormedConfigurationIsRequired :
    ∃ (c : Cfg) (s : State), s.cfg = c ∧ c.wf = false :=
  ⟨_, State.resetWith { Cfg.t7 with bodyMax := 0 }, rfl, by decide⟩

theorem test_witness_EveryStepKeepsTheConfiguration : ∃ t, step (holding [2]) = .next t :=
  ⟨_, next_stateOf State.reset (by decide)⟩

theorem test_witness_LowLengthByteIsTaken :
    (waiting .rxLen0 [5] {}).cfg.wf = true ∧ Calm (waiting .rxLen0 [5] {}) ∧ (waiting .rxLen0 [5] {}).phase = .rxLen0
      ∧ Offers (waiting .rxLen0 [5] {}) 5 [] ∧ Offers (waiting .rxLen0 [] { arrive := [0xFF, 1] }) 0xFF [1] := by decide

theorem test_witness_IdleTimeoutChangesNothing :
    (waiting .rxLen0 [] { rxTimeout := true }).phase = .rxLen0 ∧ (waiting .rxLen0 [] { rxTimeout := true }).cfg.wf = true
      ∧ Calm (waiting .rxLen0 [] { rxTimeout := true }) ∧ OffersNone (waiting .rxLen0 [] { rxTimeout := true })
      ∧ (waiting .rxLen0 [] { rxTimeout := true }).cycleInput.rxTimeout = true := by decide

/-- A length of 255, of 65280, and of 0. -/
theorem test_witness_HighLengthByteStartsTheBody :
    (waiting .rxLen1 [0] {}).cfg.wf = true ∧ Calm (waiting .rxLen1 [0] {}) ∧ (waiting .rxLen1 [0] {}).phase = .rxLen1
      ∧ Offers (waiting .rxLen1 [0] {}) 0 []
      ∧ (le16 ({ waiting .rxLen1 [0] {} with lenLo := 255 } : State).lenLo 0).toNat = 255
      ∧ (le16 (waiting .rxLen1 [0xFF] {}).lenLo 0xFF).toNat = 65280
      ∧ (le16 (waiting .rxLen1 [0] {}).lenLo 0).toNat = 0 := by decide

theorem test_witness_PartialLengthIsDropped :
    (waiting .rxLen1 [] { rxTimeout := true }).cfg.wf = true ∧ Calm (waiting .rxLen1 [] { rxTimeout := true })
      ∧ (waiting .rxLen1 [] { rxTimeout := true }).phase = .rxLen1 ∧ OffersNone (waiting .rxLen1 [] { rxTimeout := true })
      ∧ (waiting .rxLen1 [] { rxTimeout := true }).cycleInput.rxTimeout = true := by decide

/-- The first byte of two, the last as long as the buffer (with what the packet's clause asks), and the last of one that is longer. -/
theorem test_witness_BodyByteIsStoredAndCounted :
    (∀ s ∈ [receivingBody Cfg.t7 2 [] [4, 9], receivingBody small 4 [4, 1, 2] [3], receivingBody small 6 [4, 1, 2, 3, 4] [5]],
      s.cfg.wf = true ∧ Calm s ∧ s.phase = .rxBody ∧ s.rxCnt.toNat < s.rxLen.toNat)
    ∧ Offers (receivingBody Cfg.t7 2 [] [4, 9]) 4 [9] ∧ Offers (receivingBody small 4 [4, 1, 2] [3]) 3 []
    ∧ Offers (receivingBody small 6 [4, 1, 2, 3, 4] [5]) 5 []
    ∧ ([4, 1, 2] : List Byte).length = (receivingBody small 4 [4, 1, 2] [3]).rxCnt.toNat
    ∧ (∀ i (h : i < ([4, 1, 2] : List Byte).length),
        (receivingBody small 4 [4, 1, 2] [3]).body.read i = some ([4, 1, 2] : List Byte)[i])
    ∧ (receivingBody small 4 [4, 1, 2] [3]).rxCnt.toNat + 1 = (receivingBody small 4 [4, 1, 2] [3]).rxLen.toNat
    ∧ (receivingBody small 4 [4, 1, 2] [3]).rxLen.toNat ≤ (receivingBody small 4 [4, 1, 2] [3]).cfg.bodyMax := by decide

theorem test_witness_OversizeFrameIsConsumedAndDropped :
    (State.resetWith small).phase = .rxLen0 ∧ ([4, 1, 2, 3, 4, 5] : List Byte).length = (le16 6 0).toNat
      ∧ (State.resetWith small).cfg.bodyMax < ([4, 1, 2, 3, 4, 5] : List Byte).length
      ∧ (receivingBody small 5 [4, 1, 2, 3] []).phase = .rxBody
      ∧ (receivingBody small 5 [4, 1, 2, 3] []).rxCnt.toNat + 1 = (receivingBody small 5 [4, 1, 2, 3] []).rxLen.toNat
      ∧ (receivingBody small 5 [4, 1, 2, 3] []).cfg.bodyMax < (receivingBody small 5 [4, 1, 2, 3] []).rxLen.toNat := by decide

/-- With no body byte, and with one short of all. -/
theorem test_witness_ShortFrameIsDroppedSilently :
    ∀ got ∈ ([[], [4]] : List (List Byte)),
      ({ receivingBody Cfg.t7 2 got [] with inputs := [{ rxTimeout := true }] } : State).cfg.wf = true
        ∧ Calm { receivingBody Cfg.t7 2 got [] with inputs := [{ rxTimeout := true }] }
        ∧ ({ receivingBody Cfg.t7 2 got [] with inputs := [{ rxTimeout := true }] } : State).phase = .rxBody
        ∧ OffersNone { receivingBody Cfg.t7 2 got [] with inputs := [{ rxTimeout := true }] }
        ∧ ({ receivingBody Cfg.t7 2 got [] with inputs := [{ rxTimeout := true }] } : State).cycleInput.rxTimeout = true := by
  decide

/-- A piece of each kind fits, and a frame follows them all. -/
theorem test_witness_SkippedInputThenFrameIsRead :
    (State.resetWith small).phase = .rxLen0
      ∧ (∀ p ∈ [Skipped.idle, .partialLength 5, .zeroLength, .cut 2 0 [4], .oversize 5 0 [4, 1, 2, 3, 4]], p.fits 4)
      ∧ 1 + ([1, 2, 3] : List Byte).length ≤ (State.resetWith small).cfg.bodyMax
      ∧ FrameAfter 4
          ([Skipped.idle, .partialLength 5, .zeroLength, .cut 2 0 [4], .oversize 5 0 [4, 1, 2, 3, 4]].flatMap Skipped.actions
            ++ deliver [4, 0, 4, 1, 2, 3]) 4 [1, 2, 3]
      ∧ ([4] : List Byte).length < (le16 2 0).toNat := by
  have hfits : ∀ p ∈ [Skipped.idle, .partialLength 5, .zeroLength, .cut 2 0 [4], .oversize 5 0 [4, 1, 2, 3, 4]], p.fits 4 := by
    simp [Skipped.fits]
  exact ⟨rfl, hfits, by decide, ⟨_, _, hfits, rfl, rfl⟩, by decide⟩

theorem test_witness_EncodedFrameIsReceivedWhole :
    (waiting .rxLen0 [2, 0, 7, 0xAB, 9] { rxTimeout := true }).cfg.wf = true
      ∧ (waiting .rxLen0 [2, 0, 7, 0xAB, 9] { rxTimeout := true }).phase = .rxLen0
      ∧ encodeFrame 7 [0xAB] = .ok [2, 0, 7, 0xAB]
      ∧ 1 + ([0xAB] : List Byte).length ≤ (waiting .rxLen0 [2, 0, 7, 0xAB, 9] { rxTimeout := true }).cfg.bodyMax
      ∧ (waiting .rxLen0 [2, 0, 7, 0xAB, 9] { rxTimeout := true }).rxHeld = [2, 0, 7, 0xAB] ++ [9]
      ∧ QuietFor 4 (waiting .rxLen0 [2, 0, 7, 0xAB, 9] { rxTimeout := true }) :=
  ⟨by decide, rfl, rfl, by decide, rfl, by unfold QuietFor; decide⟩

theorem test_witness_SilenceRealignsTheReceiver :
    State.reset.phase = .rxLen0 ∧ (waiting .rxLen1 [] {}).phase = .rxLen1
      ∧ (receivingBody Cfg.t7 10 [1, 2] []).phase = .rxBody
      ∧ encodeFrame 1 [7, 0xF4, 1] = .ok [4, 0, 1, 7, 0xF4, 1]
      ∧ 1 + ([7, 0xF4, 1] : List Byte).length ≤ (receivingBody Cfg.t7 10 [1, 2] []).cfg.bodyMax :=
  ⟨rfl, rfl, rfl, rfl, by decide⟩

/-- A one-byte frame over what a longer one has left. -/
theorem test_witness_DispatchReadsOnlyTheDeclaredBody :
    (holding [4]).phase = .dispatch ∧ (holding [4]).cycleInput.rst = false
      ∧ (∀ i, i < (holding [4]).rxLen.toNat → Memory.read [(0, 4), (1, 9)] i = (holding [4]).body.read i)
      ∧ ∃ t, step (holding [4]) = .next t :=
  ⟨rfl, rfl, by decide, _, next_stateOf State.reset (by decide)⟩

theorem test_witness_EncodeGivesLengthTypePayload :
    (zeros Byte 65534).length ≤ 65534 ∧ 65534 < (zeros Byte 65535).length := by simp [zeros_length]

/-- A target with samples, and one with none. -/
theorem test_witness_TransmittedFrameBytes :
    Cfg.t7.wf = true ∧ Cfg.t7.isTarget 6 ∧ tiny.wf = true ∧ tiny.isTarget 0 :=
  ⟨by decide, ⟨0, rfl⟩, by decide, ⟨0, rfl⟩⟩

/-- The first byte and the last. -/
theorem test_witness_TxByteSendsTheNextByte :
    (∀ index ∈ [(0 : BitVec 17), 15],
      (sendingAt index { txReady := true }).txIdx.toNat < 16 ∧ (sendingAt index { txReady := true }).cfg.wf = true
        ∧ Calm (sendingAt index { txReady := true }) ∧ (sendingAt index { txReady := true }).phase = .tx
        ∧ (sendingAt index { txReady := true }).cycleInput.txReady = true
        ∧ (sendingAt index { txReady := true }).cfg = Cfg.t7 ∧ (sendingAt index { txReady := true }).txTarget = 6)
      ∧ ∃ frame, txFrame Cfg.t7 6 = .ok frame ∧ frame.length = 16 :=
  ⟨by
    intro index h
    simp only [List.mem_cons, List.not_mem_nil, or_false] at h
    rcases h with rfl | rfl <;> exact ⟨by decide, by decide, ⟨rfl, rfl⟩, rfl, rfl, rfl, rfl⟩,
  _, test_txFrame.1, rfl⟩

theorem test_witness_StalledTransmitHoldsTheByte :
    (sendingAt 5 {}).cfg.wf = true ∧ Calm (sendingAt 5 {}) ∧ (sendingAt 5 {}).phase = .tx
      ∧ (sendingAt 5 {}).cycleInput.txReady = false := by decide

theorem test_witness_DispatchRunsTheDecodedInstruction :
    (holding [4, 9]).cfg.wf = true ∧ (holding [4, 9]).cycleInput.rst = false
      ∧ (holding [4, 9]).cycleInput.dispatchBusy = false ∧ (holding [4, 9]).phase = .dispatch
      ∧ (holding [4, 9]).packet = .ok [4, 9] ∧ decodeBody [4, 9] = .ok (.unknown04 0 [9]) :=
  ⟨by decide, rfl, rfl, rfl, rfl, rfl⟩

theorem test_witness_MessageFrameIsReported : Dispatches (holding [0, 1, 2]) (0 :: 1 :: 2 :: []) :=
  holdingIn_dispatches (by decide) (by decide) (by decide)

theorem test_witness_TooShortPayloadIsMalformed :
    Dispatches (holding [0]) (0 :: []) ∧ ([] : List Byte).length < 2 ∧ Dispatches (holding [0, 1]) (0 :: [1])
      ∧ ([1] : List Byte).length < 2 ∧ Dispatches (holding [1]) [1] :=
  ⟨holdingIn_dispatches (by decide) (by decide) (by decide), by decide,
    holdingIn_dispatches (by decide) (by decide) (by decide), by decide,
    holdingIn_dispatches (by decide) (by decide) (by decide)⟩

/-- No sample, and one. -/
theorem test_witness_ReceivedFrameIsClassified :
    Dispatches (holding [1, 3]) (1 :: 3 :: []) ∧ ([] : List Byte).length % 2 = 0
      ∧ Dispatches (holding [1, 4, 0xF4, 1]) (1 :: 4 :: [0xF4, 1]) ∧ ([0xF4, 1] : List Byte).length % 2 = 0 :=
  ⟨holdingIn_dispatches (by decide) (by decide) (by decide), by decide,
    holdingIn_dispatches (by decide) (by decide) (by decide), by decide⟩

/-- One stray byte, under each policy. -/
theorem test_witness_OddReceivedFollowsThePolicy :
    Dispatches (holding [1, 4, 0x77]) (1 :: 4 :: [0x77]) ∧ ([0x77] : List Byte).length % 2 = 1
      ∧ (holding [1, 4, 0x77]).cfg.oddPolicy = .reject
      ∧ Dispatches (holdingIn ignoring [1, 4, 0x77]) (1 :: 4 :: [0x77])
      ∧ (holdingIn ignoring [1, 4, 0x77]).cfg.oddPolicy = .ignore :=
  ⟨holdingIn_dispatches (by decide) (by decide) (by decide), by decide, rfl,
    holdingIn_dispatches (by decide) (by decide) (by decide), rfl⟩

theorem test_witness_RequestAndResponseFramesAreIgnored :
    Dispatches (holding [2]) (2 :: []) ∧ Dispatches (holding [3, 1, 2]) (3 :: [1, 2]) :=
  ⟨holdingIn_dispatches (by decide) (by decide) (by decide), holdingIn_dispatches (by decide) (by decide) (by decide)⟩

/-- The least and the greatest unknown type. -/
theorem test_witness_UnknownTypeIsReported :
    4 ≤ (4 : Byte).toNat ∧ Dispatches (holding [4]) (4 :: []) ∧ 4 ≤ (255 : Byte).toNat
      ∧ Dispatches (holding [255, 1]) (255 :: [1]) :=
  ⟨by decide, holdingIn_dispatches (by decide) (by decide) (by decide), by decide,
    holdingIn_dispatches (by decide) (by decide) (by decide)⟩

/-- The policy, and each result of the classification. -/
theorem test_witness_ReceivedCompletes :
    State.reset.cfg.oddPolicy = .reject ∧ (State.resetWith ignoring).cfg.oddPolicy = .ignore
      ∧ classify State.reset.cfg [1, 2, 3] = none
      ∧ classify State.reset.cfg [500] = some 4 ∧ State.reset.cfg.trans 4 = none
      ∧ classify State.reset.cfg [2400, 600, 1200, 600] = some 3 ∧ State.reset.cfg.trans 3 = some 1 := by decide

/-- Each alternative: the row's constructor and the number its low bits give. -/
theorem test_witness_UnknownFramesComplete :
    (255 = 128 + (127 : BitVec 7).toNat) ∧ (64 = 64 + (0 : BitVec 6).toNat) ∧ (63 = 32 + (31 : BitVec 5).toNat)
      ∧ (16 = 16 + (0 : BitVec 4).toNat) ∧ (15 = 8 + (7 : BitVec 3).toNat) ∧ (4 = 4 + (0 : BitVec 2).toNat) := by decide

theorem test_witness_DispatchFrame :
    (∃ t, exec (.sendRequest []) State.reset = .next t)
      ∧ ∃ t, exec (.received (.whole 0 [2400, 600, 1200, 600])) State.reset = .next t ∧ t.phase = .delay :=
  ⟨⟨_, rfl⟩, _, next_stateOf State.reset (by decide), by decide⟩

theorem test_witness_NoFrameContentStopsTheLoop : Dispatches (holding [1, 4, 0x77]) [1, 4, 0x77] ∧ ([1, 4, 0x77] : List Byte) ≠ [] :=
  ⟨holdingIn_dispatches (by decide) (by decide) (by decide), by decide⟩

/-- Another configuration with the same references and tolerance. -/
theorem test_witness_ClassifyReturnsTheLeastMatch :
    ({ Cfg.t7 with clkHz := 0, oddPolicy := .ignore } : Cfg).tolerance = Cfg.t7.tolerance
      ∧ ({ Cfg.t7 with clkHz := 0, oddPolicy := .ignore } : Cfg).table.map (·.reference) = Cfg.t7.table.map (·.reference) :=
  ⟨rfl, rfl⟩

theorem test_witness_MatchIsLengthAndTolerance : Cfg.t7.wf = true ∧ isMatch Cfg.t7 3 [2500, 600, 1200, 600] = true := by decide

theorem test_witness_DifferentLengthNeverMatches :
    Cfg.t7.code 4 = some [500] ∧ ([500] : List Nat).length ≠ ([500, 500] : List Half).length
      ∧ ∀ k code, Cfg.t7.code k = some code → code ≠ [] := by
  refine ⟨rfl, by decide, fun k code h => ?_⟩
  obtain ⟨e, he, rfl⟩ := Option.map_eq_some_iff.1 h
  have hall : ∀ e ∈ Cfg.t7.table, e.reference ≠ [] := by decide
  exact hall e (List.mem_of_getElem? he)

theorem test_witness_NoMatchIsReported :
    Dispatches (holding [1, 5, 1, 0]) (1 :: 5 :: sampleBytes (([1] : List Half).map (·.toNat)))
      ∧ classify (holding [1, 5, 1, 0]).cfg [1] = none :=
  ⟨holdingIn_dispatches (by decide) (by decide) (by decide), by decide⟩

theorem test_witness_MatchWithoutTranslationIsReported :
    Dispatches (holding [1, 0, 0xDC, 0xFF, 0x23, 0]) (1 :: 0 :: sampleBytes (([65500, 35] : List Half).map (·.toNat)))
      ∧ classify (holding [1, 0, 0xDC, 0xFF, 0x23, 0]).cfg [65500, 35] = some 5
      ∧ (holding [1, 0, 0xDC, 0xFF, 0x23, 0]).cfg.trans 5 = none :=
  ⟨holdingIn_dispatches (by decide) (by decide) (by decide), by decide, by decide⟩

theorem test_witness_TranslationArmsTheRetransmission :
    Dispatches (holding [1, 1, 0x60, 9, 0x58, 2, 0xB0, 4, 0x58, 2])
        (1 :: 1 :: sampleBytes (([2400, 600, 1200, 600] : List Half).map (·.toNat)))
      ∧ classify (holding [1, 1, 0x60, 9, 0x58, 2, 0xB0, 4, 0x58, 2]).cfg [2400, 600, 1200, 600] = some 3
      ∧ (holding [1, 1, 0x60, 9, 0x58, 2, 0xB0, 4, 0x58, 2]).cfg.trans 3 = some 1 :=
  ⟨holdingIn_dispatches (by decide) (by decide) (by decide), by decide, by decide⟩

/-- No tick, and all of them, with the failure pulsed that `DELAY` does not sample. -/
theorem test_witness_TicksCountTheDelayDown :
    ({ waiting .delay [] { xportFail := true } with delayCnt := 3 } : State).cfg.wf = true
      ∧ ({ waiting .delay [] { xportFail := true } with delayCnt := 3 } : State).phase = .delay
      ∧ 0 ≤ ({ waiting .delay [] { xportFail := true } with delayCnt := 3 } : State).delayCnt
      ∧ 3 ≤ ({ waiting .delay [] { xportFail := true } with delayCnt := 3 } : State).delayCnt
      ∧ ∀ i, i < 3 → (({ waiting .delay [] { xportFail := true } with delayCnt := 3 } : State).inputAt i).rst = false := by
  decide

theorem test_witness_DelayDoneStartsTheTransmission :
    (waiting .delay [] {}).cfg.wf = true ∧ (waiting .delay [] {}).cycleInput.rst = false
      ∧ (waiting .delay [] {}).phase = .delay ∧ (waiting .delay [] {}).delayCnt = 0 := by decide

/-- Under `tiny`: no delay, a frame of four bytes, and a transport that accepts one in each cycle. -/
theorem test_witness_TranslatedFrameIsAnsweredInOrder :
    ∃ s : State, Dispatches s (1 :: 0 :: sampleBytes (([] : List Half).map (·.toNat)))
      ∧ classify s.cfg [] = some 0 ∧ s.cfg.trans 0 = some 0 ∧ txFrame s.cfg 0 = .ok [2, 0, 2, 0x14]
      ∧ QuietFor (s.cfg.delayTicks + 2 + 4) s ∧ AcceptsFor (s.cfg.delayTicks + 2 + 4) s :=
  ⟨{ holdingIn tiny [1, 0] with inputs := List.replicate 6 { txReady := true } },
    ⟨by decide, rfl, rfl, rfl, (holdingIn_holds (by decide) (by decide)).congr rfl rfl rfl⟩,
    by decide, by decide, rfl, by unfold QuietFor; decide, by unfold AcceptsFor; decide⟩

/-- In each of the four phases. -/
theorem test_witness_TransportFailureHalts :
    ∀ phase ∈ [Phase.rxLen0, .rxLen1, .rxBody, .tx],
      (waiting phase [9] { xportFail := true }).cfg.wf = true ∧ (waiting phase [9] { xportFail := true }).cycleInput.rst = false
        ∧ (waiting phase [9] { xportFail := true }).cycleInput.xportFail = true
        ∧ ((waiting phase [9] { xportFail := true }).phase = .rxLen0 ∨ (waiting phase [9] { xportFail := true }).phase = .rxLen1
          ∨ (waiting phase [9] { xportFail := true }).phase = .rxBody ∨ (waiting phase [9] { xportFail := true }).phase = .tx) := by
  decide

/-- A halted state that a run reaches: the first cycle brings the failure. -/
theorem test_witness_HaltedBlockDoesNothing :
    ∃ s : State, s.phase = .halt ∧ s.cfg.wf = true ∧ s.cycleInput.rst = false ∧ Reached s :=
  ⟨stateOf (core.run 1 (waiting .rxLen0 [] { xportFail := true })) State.reset, by decide, by decide, by decide,
    waiting .rxLen0 [] { xportFail := true }, 1, by unfold CfgWellFormed; decide, rfl, next_stateOf State.reset (by decide)⟩

/-- In each alternative, two inputs that differ in what the phase does not sample. -/
theorem test_witness_UnsampledInputsHaveNoEffect :
    (∀ phase ∈ [Phase.rxLen0, .rxLen1, .rxBody],
      ((waiting phase [] {}).phase = .rxLen0 ∨ (waiting phase [] {}).phase = .rxLen1 ∨ (waiting phase [] {}).phase = .rxBody)
        ∧ ({ txReady := true, dispatchBusy := true } : CycleInput).xportFail = ({} : CycleInput).xportFail
        ∧ ({ txReady := true, dispatchBusy := true } : CycleInput).rxTimeout = ({} : CycleInput).rxTimeout)
      ∧ (waiting .rxLen0 [] {}).inputs = {} :: []
      ∧ (holding [4]).phase = .dispatch
      ∧ ({ xportFail := true, rxTimeout := true } : CycleInput).dispatchBusy = ({} : CycleInput).dispatchBusy
      ∧ (waiting .delay [] {}).phase = .delay ∧ (waiting .tx [] {}).phase = .tx
      ∧ ({ rxTimeout := true } : CycleInput).xportFail = ({} : CycleInput).xportFail
      ∧ ({ rxTimeout := true } : CycleInput).txReady = ({} : CycleInput).txReady
      ∧ (waiting .halt [] {}).phase = .halt := by decide

/-- Each clause: failure over a byte, byte over a timeout, a timeout alone, nothing; and in `TX`. -/
theorem test_witness_FailureThenByteThenTimeout :
    (waiting .rxBody [9] { xportFail := true, rxTimeout := true }).cfg.wf = true
      ∧ (waiting .rxBody [9] { xportFail := true, rxTimeout := true }).cycleInput.rst = false
      ∧ (waiting .rxBody [9] { xportFail := true, rxTimeout := true }).cycleInput.xportFail = true
      ∧ (waiting .rxBody [9] { rxTimeout := true }).cycleInput.xportFail = false
      ∧ Offers (waiting .rxBody [9] { rxTimeout := true }) 9 []
      ∧ OffersNone (waiting .rxBody [] { rxTimeout := true })
      ∧ (waiting .rxBody [] { rxTimeout := true }).cycleInput.rxTimeout = true
      ∧ OffersNone (waiting .rxBody [] {}) ∧ (waiting .rxBody [] {}).cycleInput.rxTimeout = false
      ∧ (sendingAt 0 { xportFail := true, txReady := true }).cycleInput.xportFail = true
      ∧ (sendingAt 0 { txReady := true }).cycleInput.xportFail = false
      ∧ (sendingAt 0 { txReady := true }).cycleInput.txReady = true := by decide

theorem test_witness_PhaseEnablesItsSteps :
    enabled (.rxByte 5) State.reset = true ∧ enabled .tick State.reset = false ∧ enabled .fail (waiting .halt [] {}) = false
      ∧ choose {} (waiting .rxLen0 [5] {}) = .act (.rxByte 5) := by decide

/-- The invariant in an `RX_BODY` state, in a `DISPATCH` state, in a `DELAY` state, and in a `TX` state with part of the frame sent. -/
theorem test_inv_rxBody : Inv (receivingBody Cfg.t7 3 [4, 1] []) where
  cfgWf := by decide
  canonical := by decide
  inBuffer := by decide
  counted := by decide
  receiving := fun _ => ⟨by decide, by decide⟩
  complete := fun h => by cases h
  armed := fun h => by rcases h with h | h <;> cases h
  sending := fun h => by cases h
  halted := by decide
  sent := rfl
  reported := fun j h => by cases h
  targetWidth := by decide
  delayWidth := by decide
  haltQuiet := fun h => by cases h

theorem test_inv_dispatch : Inv (holding [4, 1]) where
  cfgWf := by decide
  canonical := by decide
  inBuffer := by decide
  counted := by decide
  receiving := fun h => by cases h
  complete := fun _ => ⟨by decide, by decide, by decide, by decide⟩
  armed := fun h => by rcases h with h | h <;> cases h
  sending := fun h => by cases h
  halted := by decide
  sent := rfl
  reported := fun j h => by cases h
  targetWidth := by decide
  delayWidth := by decide
  haltQuiet := fun h => by cases h

theorem test_inv_delay : Inv { waiting .delay [] {} with txTarget := 6, delayCnt := 3, evLog := [.translate 0 6] } where
  cfgWf := by decide
  canonical := by decide
  inBuffer := by decide
  counted := by decide
  receiving := fun h => by cases h
  complete := fun h => by cases h
  armed := fun _ => ⟨0, rfl⟩
  sending := fun h => by cases h
  halted := by decide
  sent := ⟨[], rfl, rfl⟩
  reported := fun j h => by
    have hj : j = 6 := by simpa [translations] using h
    rw [hj]
    exact ⟨0, rfl⟩
  targetWidth := by decide
  delayWidth := by decide
  haltQuiet := fun h => by cases h

theorem test_inv_tx :
    Inv { sendingAt 2 { txReady := true } with evLog := [.translate 0 6], txLog := [0x0E, 0x00] } where
  cfgWf := by decide
  canonical := by decide
  inBuffer := by decide
  counted := by decide
  receiving := fun h => by cases h
  complete := fun h => by cases h
  armed := fun _ => ⟨0, rfl⟩
  sending := fun _ => by decide
  halted := by decide
  sent := ⟨[], rfl, rfl⟩
  reported := fun j h => by
    have hj : j = 6 := by simpa [translations] using h
    rw [hj]
    exact ⟨0, rfl⟩
  targetWidth := by decide
  delayWidth := by decide
  haltQuiet := fun h => by cases h

/-- A schedule that is fair and stalls in every other cycle, with no failure; one that fails in its third cycle; and one that neither
accepts nor fails. -/
theorem test_witness_FairTransportCompletesTheWrite :
    (∃ s : State, Inv s ∧ s.phase = .tx) ∧ (∃ s : State, Inv s ∧ s.phase = .delay)
      ∧ (∀ s, NeverReset (fun i => { txReady := decide (i % 2 = 1) }) ∧ FairTx (fun i => { txReady := decide (i % 2 = 1) }) s)
      ∧ NoFailInput (fun i => { txReady := decide (i % 2 = 1) })
      ∧ (∀ s, NeverReset (fun i => { xportFail := decide (2 ≤ i) }) ∧ FairTx (fun i => { xportFail := decide (2 ≤ i) }) s)
      ∧ NeverReset (fun _ => {})
      ∧ ∀ i : Nat, (((fun _ => {}) : Schedule) i).txReady = false ∧ (((fun _ => {}) : Schedule) i).xportFail = false :=
  ⟨⟨_, test_inv_tx, rfl⟩, ⟨_, test_inv_delay, rfl⟩,
    fun _ => ⟨fun _ => rfl, fun i _ _ _ => ⟨2 * i + 1, by omega, .inl (by simp)⟩⟩, fun _ => rfl,
    fun _ => ⟨fun _ => rfl, fun i _ _ _ => ⟨i + 2, by omega, .inr (by simp)⟩⟩,
    fun _ => rfl, fun _ => ⟨rfl, rfl⟩⟩

/-- A stalled cycle, then an accepted byte: `0E`, the first of `TXFRAME(6)`. -/
theorem test_stall_then_byte :
    after (runUnder (fun i => { txReady := decide (i = 1) }) 2 (sendingAt 0 {})) (fun t => (t.txLog, t.txIdx, t.phase))
      = some ([0x0E], 1, .tx) := by decide

/-- A row of the table, and enabled steps of states that meet the invariant. -/
theorem test_witness_TransitionTableIsFollowed :
    (∃ t, Transition (.rxByte 5) State.reset t)
      ∧ Inv (receivingBody Cfg.t7 3 [4, 1] []) ∧ enabled (.rxByte 0) (receivingBody Cfg.t7 3 [4, 1] []) = true
      ∧ Inv (holding [4, 1]) ∧ enabled .dispatch (holding [4, 1]) = true
      ∧ Inv { sendingAt 2 { txReady := true } with evLog := [.translate 0 6], txLog := [0x0E, 0x00] }
      ∧ enabled .txByte { sendingAt 2 { txReady := true } with evLog := [.translate 0 6], txLog := [0x0E, 0x00] } = true :=
  ⟨⟨_, .len0Byte 5 rfl⟩, test_inv_rxBody, by decide, test_inv_dispatch, by decide, test_inv_tx, by decide⟩

/-- Both ways: the flag is set, and cleared. -/
theorem test_witness_FaultFlagFollowsFailureAndReset :
    (∃ t, step (waiting .rxLen0 [] { xportFail := true }) = .next t ∧ (waiting .rxLen0 [] { xportFail := true }).fault = false
        ∧ t.fault = true)
      ∧ ∃ t, step { waiting .halt [] { rst := true } with fault := true } = .next t ∧ t.fault = false :=
  ⟨⟨_, next_stateOf State.reset (by decide), rfl, by decide⟩, _, next_stateOf State.reset (by decide), by decide⟩

/-- A cycle with an event, and one without. -/
theorem test_witness_OneEventAtMostPerStep :
    (∃ t, step (holding [4]) = .next t ∧ (holding [4]).cycleInput.rst = false ∧ t.evLog = [.unknownType 4 []])
      ∧ ∃ t, step (holding [2]) = .next t ∧ t.evLog = [] :=
  ⟨⟨_, next_stateOf State.reset (by decide), rfl, by decide⟩, _, next_stateOf State.reset (by decide), by decide⟩

/-- A byte that is accepted, and one that is not (V-RSP-8). -/
theorem test_witness_BytesAreAcceptedOnceInOrder :
    (∃ t, step (waiting .rxLen0 [5, 6] {}) = .next t ∧ t.rxHeld = [6])
      ∧ ∃ t, step (sendingAt 3 { arrive := [5] }) = .next t ∧ t.rxHeld = [5] :=
  ⟨⟨_, next_stateOf State.reset (by decide), by decide⟩, _, next_stateOf State.reset (by decide), by decide⟩

theorem test_witness_LoopedBackFrameIsANoOp : txFrame tiny 0 = .ok [0x02, 0x00, 0x02, 0x14] := rfl

/-- The longest payload of each kind, and the shortest. -/
theorem test_witness_DecodeOfEncodeIsTheInstruction :
    (Instr.message (.full 0 0 (zeros Byte 65532))).wf = true ∧ (Instr.message (.short none)).wf = true
      ∧ (Instr.received (.whole 0 (zeros Half 32766))).wf = true ∧ (Instr.received .empty).wf = true
      ∧ (Instr.unknown04 3 (zeros Byte 65534)).wf = true := by
  simp [Instr.wf, MessageForm.wf, ReceivedForm.wf, maxPayload, zeros_length]

theorem test_witness_EveryBodyDecodesAndEncodesBack :
    1 ≤ (zeros Byte 1).length ∧ (zeros Byte 1).length ≤ 65535 ∧ 1 ≤ (zeros Byte 65535).length
      ∧ (zeros Byte 65535).length ≤ 65535 := by simp [zeros_length]

/-- Whatever the environment is about to do. -/
theorem test_witness_InvariantHoldsAtReset :
    CfgWellFormed (waiting .rxLen0 [5, 6] { xportFail := true }) ∧ AtReset (waiting .rxLen0 [5, 6] { xportFail := true })
      ∧ CfgWellFormed (State.resetWith tiny) ∧ AtReset (State.resetWith tiny) :=
  ⟨by unfold CfgWellFormed; decide, rfl, by unfold CfgWellFormed; decide, rfl⟩

theorem test_witness_NoRunStopsAndAllMeetTheInvariant :
    CfgWellFormed (waiting .rxLen0 [1, 0, 3] { xportFail := true }) ∧ AtReset (waiting .rxLen0 [1, 0, 3] { xportFail := true }) :=
  ⟨by unfold CfgWellFormed; decide, rfl⟩

theorem test_witness_EveryStepKeepsTheInvariant :
    Inv (receivingBody Cfg.t7 3 [4, 1] []) ∧ Inv (holding [4, 1])
      ∧ Inv { waiting .delay [] {} with txTarget := 6, delayCnt := 3, evLog := [.translate 0 6] }
      ∧ Inv { sendingAt 2 { txReady := true } with evLog := [.translate 0 6], txLog := [0x0E, 0x00] } :=
  ⟨test_inv_rxBody, test_inv_dispatch, test_inv_delay, test_inv_tx⟩

/-- A reached state with a frame begun: `RECEIVED(0, [])` under `tiny`, its dispatch, the end of the delay of no tick, one byte. -/
theorem test_witness_SentFramesFollowTranslations :
    ∃ s : State, Reached s ∧ s.phase = .tx ∧ s.txLog = [0x02] ∧ translations s.evLog = [0] :=
  ⟨stateOf (core.run 7 { State.resetWith tiny with rxHeld := [2, 0, 1, 0], inputs := List.replicate 7 { txReady := true } })
      State.reset,
    ⟨{ State.resetWith tiny with rxHeld := [2, 0, 1, 0], inputs := List.replicate 7 { txReady := true } }, 7,
      by unfold CfgWellFormed; decide, rfl, next_stateOf State.reset (by decide)⟩, by decide, by decide, by decide⟩

end Sys2Proof.Tests
end

/-! PROOFS. The configuration: when it is well-formed (rule R9), what `step` answers where it is not (rule R234), and that no step of the
transition system and no clock cycle changes it (rules R8, R231). -/

namespace Sys2Proof

section WellFormedCfg

variable {c : Cfg}

theorem Cfg.lt_size_iff {k : Nat} : k < c.size ↔ ∃ code, c.code k = some code := by
  simp [Cfg.size, Cfg.code, List.getElem?_eq_some_iff]

/-- Rule R9(a), read off the table index by index. -/
theorem Cfg.durationsFit_iff :
    c.durationsFit = true ↔ ∀ k code, c.code k = some code → ∀ v ∈ code, v ≤ 65535 := by
  simp only [Cfg.durationsFit, Cfg.code, List.all_eq_true, decide_eq_true_eq, List.mem_iff_getElem? (l := c.table),
    Option.map_eq_some_iff]
  constructor
  · rintro h k _ ⟨e, he, rfl⟩
    exact h e ⟨k, he⟩
  · rintro h e ⟨k, he⟩
    exact h k e.reference ⟨e, he, rfl⟩

/-- An entry's target fits when it is an index of the table whose reference is short enough for a frame. -/
theorem Cfg.targetFits_iff {e : TableEntry} :
    c.targetFits e = true ↔ ∀ j, e.target = some j → ∃ code, c.code j = some code ∧ code.length ≤ 32766 := by
  cases ht : e.target with
  | none => simp [Cfg.targetFits, ht]
  | some j => cases hc : c.code j <;> simp [Cfg.targetFits, Cfg.len, ht, hc]

theorem Cfg.targetsFit_iff_code :
    c.targetsFit = true ↔ ∀ k j, c.trans k = some j → ∃ code, c.code j = some code ∧ code.length ≤ 32766 := by
  simp only [Cfg.targetsFit, Cfg.trans, List.all_eq_true, Cfg.targetFits_iff, List.mem_iff_getElem? (l := c.table),
    Option.bind_eq_some_iff]
  constructor
  · rintro h k j ⟨e, he, ht⟩
    exact h e ⟨k, he⟩ j ht
  · rintro h e ⟨k, he⟩ j ht
    exact h k j ⟨e, he, ht⟩

/-- Rule R9(b) and (c): `targetsFit` asks both at once of every target. -/
theorem Cfg.targetsFit_iff :
    c.targetsFit = true ↔
      (∀ k j, c.trans k = some j → j < c.size)
        ∧ ∀ k j code, c.trans k = some j → c.code j = some code → code.length ≤ 32766 := by
  rw [Cfg.targetsFit_iff_code]
  constructor
  · intro h
    refine ⟨fun k j hk => ?_, fun k j code hk hc => ?_⟩
    · obtain ⟨code, hc, -⟩ := h k j hk
      exact Cfg.lt_size_iff.2 ⟨code, hc⟩
    · obtain ⟨code', hc', hlen⟩ := h k j hk
      rwa [Option.some.inj (hc.symm.trans hc')]
  · rintro ⟨hIndex, hLength⟩ k j hk
    obtain ⟨code, hc⟩ := Cfg.lt_size_iff.1 (hIndex k j hk)
    exact ⟨code, hc, hLength k j code hk hc⟩

/-- Rule R9(d). -/
theorem Cfg.bodyMaxFits_iff : c.bodyMaxFits = true ↔ 1 ≤ c.bodyMax ∧ c.bodyMax ≤ 65535 := by
  simp [Cfg.bodyMaxFits]

/-- Rule R9(e), with `TX_REPEAT` as a number. -/
theorem Cfg.constantsFixed_iff :
    c.constantsFixed = true ↔ c.tolerance = 100 ∧ c.txRepeat.toNat = 20 ∧ c.refW = 16 := by
  have hRepeat : c.txRepeat = 20 ↔ c.txRepeat.toNat = 20 := BitVec.toNat_inj.symm
  simp only [Cfg.constantsFixed, Bool.and_eq_true, decide_eq_true_eq, hRepeat, and_assoc]

/-- Rule R9: the conjunction of its four checks, (b) and (c) being one. -/
theorem Cfg.wf_iff :
    c.wf = true ↔
      c.durationsFit = true ∧ c.targetsFit = true ∧ c.bodyMaxFits = true ∧ c.constantsFixed = true := by
  simp [Cfg.wf, and_assoc]

end WellFormedCfg

end Sys2Proof

namespace Sys2Proof.Machine

/-- Rule R234: an ill-formed configuration is refused before the inputs of the cycle are looked at. -/
theorem step_of_not_wf {s : State} (h : s.cfg.wf = false) : step s = .refused .illFormedCfg := by
  simp [step, h]

section Configuration

variable {s t : State}

@[simp] theorem rxBodyByte_cfg (b : Byte) : (rxBodyByte b s).cfg = s.cfg := by
  unfold rxBodyByte
  split <;> simp

@[simp] theorem rxByte_cfg (b : Byte) : (rxByte b s).cfg = s.cfg := by
  unfold rxByte
  split <;> simp [rxLen0Byte, rxLen1Byte]

@[simp] theorem rxTimeout_cfg : (rxTimeout s).cfg = s.cfg := by
  unfold rxTimeout
  split <;> simp

@[simp] theorem failStep_cfg : (failStep s).cfg = s.cfg := by
  unfold failStep
  split <;> simp

@[simp] theorem tick_cfg : (tick s).cfg = s.cfg := by
  unfold tick
  split
  · split <;> simp
  all_goals rfl

@[simp] theorem delayDone_cfg : (delayDone s).cfg = s.cfg := by
  unfold delayDone
  split
  · split <;> simp
  all_goals rfl

theorem sendFrom_cfg {frame : List Byte} (h : sendFrom frame s = .next t) : t.cfg = s.cfg := by
  unfold sendFrom at h
  split at h
  · cases h
  · cases h
    split <;> simp

theorem txByte_cfg (h : txByte s = .next t) : t.cfg = s.cfg := by
  unfold txByte at h
  split at h
  · split at h
    · exact sendFrom_cfg h
    · cases h
    · cases h
  all_goals (cases h; rfl)

/-- No meaning of an instruction touches the configuration (rule R72: a frame cannot change the tables). -/
theorem exec_cfg {i : Instr} (h : exec i s = .next t) : t.cfg = s.cfg := by
  rcases exec_cases i s with he | ⟨e, -, he⟩ | ⟨k, j, -, he⟩
  all_goals
    rw [he] at h
    cases h
    simp

theorem dispatchStep_cfg (h : dispatchStep s = .next t) : t.cfg = s.cfg := by
  unfold dispatchStep at h
  split at h
  · split at h
    · exact exec_cfg h
    · cases h
  all_goals (cases h; rfl)

/-- Each of the seven steps of rule R13 keeps the configuration. -/
theorem perform_cfg {a : Action} (h : perform a s = .next t) : t.cfg = s.cfg := by
  cases a with
  | rxByte b => cases h; exact rxByte_cfg b
  | rxTimeout => cases h; exact rxTimeout_cfg
  | fail => cases h; exact failStep_cfg
  | tick => cases h; exact tick_cfg
  | txByte => exact txByte_cfg h
  | dispatch => exact dispatchStep_cfg h
  | delayDone => cases h; exact delayDone_cfg

theorem step_cfg (h : step s = .next t) : t.cfg = s.cfg := by
  obtain ⟨-, ⟨-, rfl⟩ | ⟨-, -, rfl⟩ | ⟨a, -, -, ha⟩⟩ := step_next h
  · simp
  · simp
  · simpa using perform_cfg ha

end Configuration

end Sys2Proof.Machine

namespace Sys2Proof.Proofs

open Sys2Proof Sys2Proof.Machine

/-- Settles O3: the check is R9 clause by clause, and `step` refuses where it fails. -/
theorem wellFormedConfigurationIsRequired : Obligations.WellFormedConfigurationIsRequired := by
  intro c
  constructor
  · rw [Cfg.wf_iff, Cfg.durationsFit_iff, Cfg.targetsFit_iff, Cfg.bodyMaxFits_iff, Cfg.constantsFixed_iff, and_assoc]
  · rintro s rfl hwf
    exact step_of_not_wf hwf

/-- Settles O4: a reset, an idle cycle and each of the seven steps keep the configuration. -/
theorem everyStepKeepsTheConfiguration : Obligations.EveryStepKeepsTheConfiguration :=
  fun _ _ h => step_cfg h

end Sys2Proof.Proofs

/-! PROOFS. Which steps a phase enables (rule R24), that a step which is not enabled has no effect, and that a cycle takes an enabled
one only. -/

namespace Sys2Proof.Machine

section Enabled

variable {s : State} {a : Action}

/-- The table of rule R24. -/
theorem enabled_iff :
    enabled a s = true ↔
      (Receiving s ∧ ((∃ b, a = .rxByte b) ∨ a = .rxTimeout ∨ a = .fail))
        ∨ (s.phase = .dispatch ∧ a = .dispatch)
        ∨ (s.phase = .delay ∧ ((0 < s.delayCnt ∧ a = .tick) ∨ (s.delayCnt = 0 ∧ a = .delayDone)))
        ∨ (s.phase = .tx ∧ (a = .txByte ∨ a = .fail)) := by
  cases hp : s.phase <;> cases a <;> simp [enabled, Receiving, hp]

/-- Whether a step is enabled depends on the phase and the delay counter alone. -/
theorem enabled_congr {t : State} (hp : t.phase = s.phase) (hd : t.delayCnt = s.delayCnt) : enabled a t = enabled a s := by
  simp only [enabled, hp, hd]

theorem txByte_of_ne (h : s.phase ≠ .tx) : txByte s = .next s := by
  unfold txByte
  split
  · contradiction
  all_goals rfl

theorem dispatchStep_of_ne (h : s.phase ≠ .dispatch) : dispatchStep s = .next s := by
  unfold dispatchStep
  split
  · contradiction
  all_goals rfl

/-- Rule R24: "every other step is not accepted". -/
theorem perform_of_not_enabled (h : enabled a s = false) : perform a s = .next s := by
  cases a with
  | rxByte b => cases hp : s.phase <;> simp_all [enabled, perform, rxByte]
  | rxTimeout => cases hp : s.phase <;> simp_all [enabled, perform, rxTimeout]
  | fail => cases hp : s.phase <;> simp_all [enabled, perform, failStep]
  | tick => cases hp : s.phase <;> simp_all [enabled, perform, tick]
  | delayDone => cases hp : s.phase <;> simp_all [enabled, perform, delayDone]
  | txByte => exact txByte_of_ne fun hp => by simp [enabled, hp] at h
  | dispatch => exact dispatchStep_of_ne fun hp => by simp [enabled, hp] at h

theorem choose_act {c : CycleInput} (h : choose c s = .act a) : c.rst = false ∧ chooseStep c s = .act a := by
  unfold choose at h
  split at h
  · cases h
  · next hrst => exact ⟨by simpa using hrst, h⟩

/-- The step a cycle selects (rule R51) is one of those its phase enables (rule R24). -/
theorem enabled_of_chooseStep {c : CycleInput} (h : chooseStep c s = .act a) : enabled a s = true := by
  rw [enabled_iff]
  rcases chooseStep_act h with ⟨hp, ha⟩ | ⟨hp, -, ha⟩ | ⟨hp, hd, ha⟩ | ⟨hp, hd, ha⟩ | ⟨hp, ha⟩
  · refine .inl ⟨hp, ?_⟩
    obtain ⟨-, ha⟩ | ⟨-, b, -, -, ha⟩ | ⟨-, -, -, ha⟩ := ha
    · exact .inr (.inr ha)
    · exact .inl ⟨b, ha⟩
    · exact .inr (.inl ha)
  · exact .inr (.inl ⟨hp, ha⟩)
  · exact .inr (.inr (.inl ⟨hp, .inr ⟨hd, ha⟩⟩))
  · exact .inr (.inr (.inl ⟨hp, .inl ⟨hd, ha⟩⟩))
  · refine .inr (.inr (.inr ⟨hp, ?_⟩))
    obtain ⟨-, ha⟩ | ⟨-, -, ha⟩ := ha
    · exact .inr ha
    · exact .inl ha

end Enabled

end Sys2Proof.Machine

/-! PROOFS. The transition table of rule R25: each row is what `perform` answers, and in a state that meets the invariant every
enabled step is a row. -/

namespace Sys2Proof.Machine

section Rows

variable {s : State}

/-- A payload of type 0 that is too short for its format is reported raw (rule R147). -/
theorem execMessage_short {payload : List Byte} (h : payload.length < 2) :
    execMessage (messageForm payload) s = report (.malformed 0 payload) s := by
  match payload with
  | [] => rfl
  | [_] => rfl
  | _ :: _ :: _ => simp at h

/-- Rules R148 and R150: samples are classified when no byte is left over, or when the policy ignores it. -/
theorem execReceived_classifies {rep : Byte} {rest : List Byte} (h : rest.length % 2 = 0 ∨ s.cfg.oddPolicy = .ignore) :
    execReceived (receivedForm (rep :: rest)) s = classifyAndRespond rep (pairSamples rest).1 s := by
  have htrailing := pairSamples_trailing rest
  rw [receivedForm_cons]
  cases hp : (pairSamples rest).2 with
  | none => rfl
  | some trailing =>
    have hpolicy : s.cfg.oddPolicy = .ignore := h.resolve_left fun heven => by simp [hp, heven] at htrailing
    simp [execReceived, hpolicy]

/-- Rule R150 under the policy that rejects: the payload of odd length is reported raw. -/
theorem execReceived_rejects {rep : Byte} {rest : List Byte} (h : rest.length % 2 = 1) (hpolicy : s.cfg.oddPolicy = .reject) :
    execReceived (receivedForm (rep :: rest)) s = report (.malformed 1 (rep :: rest)) s := by
  have htrailing := pairSamples_trailing rest
  have hpayload := receivedForm_payload (rep :: rest)
  rw [receivedForm_cons] at hpayload ⊢
  cases hp : (pairSamples rest).2 with
  | none => simp [hp, h] at htrailing
  | some trailing =>
    rw [hp] at hpayload
    simp [execReceived, hpolicy, hpayload]

/-- Rule R153: the six unknown rows report the whole type byte. -/
theorem exec_unknown {type : Byte} {payload : List Byte} {row : Row} (hr : rowOf type = some row) (h : 4 ≤ type.toNat) :
    exec (row.instr type payload) s = reportUnknown type payload s := by
  have htype := rowOf_typeByte type row payload hr
  cases row with
  | message | received | sendRequest | sendResponse =>
    simp only [Row.instr, Instr.typeByte] at htype
    subst htype
    exact absurd h (by decide)
  | unknown80 | unknown40 | unknown20 | unknown10 | unknown08 | unknown04 =>
    exact congrArg (reportUnknown · payload s) htype

theorem storeBody_of_lt (b : Byte) (h : s.rxCnt.toNat < s.cfg.bodyMax) :
    s.storeBody b = { s with body := s.body.write s.rxCnt.toNat b, rxCnt := s.rxCnt + 1 } := by
  simp [State.storeBody, h]

theorem storeBody_of_ge (b : Byte) (h : s.cfg.bodyMax ≤ s.rxCnt.toNat) :
    s.storeBody b = { s with rxCnt := s.rxCnt + 1 } := by
  simp [State.storeBody, Nat.not_lt.2 h]

theorem txByte_of_frame {frame : List Byte} (hp : s.phase = .tx) (hf : txFrame s.cfg s.txTarget = .ok frame) :
    txByte s = sendFrom frame s := by
  simp [txByte, hp, hf]

/-- Every row of the table of rule R25 is what the model does. -/
theorem perform_of_transition {a : Action} {t : State} (h : Transition a s t) : perform a s = .next t := by
  have hdispatch : ∀ {type payload row}, s.phase = .dispatch → BodyHolds s (type :: payload) → rowOf type = some row →
      perform .dispatch s = exec (row.instr type payload) s :=
    fun hp hb hr => dispatchStep_of_holds hp hb hr
  have hclassify : ∀ {rep rest}, s.phase = .dispatch → BodyHolds s (1 :: rep :: rest) →
      rest.length % 2 = 0 ∨ s.cfg.oddPolicy = .ignore →
      perform .dispatch s = .next (respond (classify s.cfg (pairSamples rest).1) rep (pairSamples rest).1 s) :=
    fun hp hb hc => (hdispatch (row := .received) hp hb rfl).trans (execReceived_classifies hc)
  cases h with
  | len0Byte b hp => exact congrArg _ (rxByte_len0 b hp)
  | len0Timeout hp =>
    exact congrArg _ ((rxTimeout_receiving (.inl hp)).trans (by rw [← hp]))
  | len1Byte b hp hl => exact congrArg _ (rxByte_len1 b hp fun h0 => hl (BitVec.eq_of_toNat_eq h0))
  | len1Empty b hp hl => exact congrArg _ (rxByte_len1_zero b hp (by rw [hl]; rfl))
  | len1Timeout hp => exact congrArg _ (rxTimeout_receiving (.inr (.inl hp)))
  | bodyByte b hp hl => exact congrArg _ (rxByte_body_more b hp (by omega))
  | bodyLast b hp hl hfit =>
    refine congrArg _ ((rxByte_body_last b hp hl).trans ?_)
    rw [if_pos hfit, storeBody_of_lt b (by omega)]
    rfl
  | bodyOversize b hp hl hover =>
    refine congrArg _ ((rxByte_body_last b hp hl).trans ?_)
    rw [if_neg (by omega), storeBody_of_ge b (by omega)]
    rfl
  | bodyTimeout hp => exact congrArg _ (rxTimeout_receiving (.inr (.inr hp)))
  | fail hp => rcases hp with hp | hp | hp | hp <;> simp [perform, failStep, hp, State.raiseTransportFailure]
  | message subtype code extra hp hb => exact hdispatch (row := .message) hp hb rfl
  | messageShort payload hp hb hl => exact (hdispatch (row := .message) hp hb rfl).trans (execMessage_short hl)
  | receivedEmpty hp hb => exact hdispatch (row := .received) hp hb rfl
  | receivedOdd rep rest hp hb hodd hpolicy =>
    exact (hdispatch (row := .received) hp hb rfl).trans (execReceived_rejects hodd hpolicy)
  | receivedNoMatch rep rest hp hb hc hr => rw [hclassify hp hb hc, hr]; rfl
  | receivedMatch rep rest k hp hb hc hr hk => rw [hclassify hp hb hc, hr]; simp only [respond, hk]; rfl
  | receivedTranslate rep rest k j hp hb hc hr hk => rw [hclassify hp hb hc, hr]; simp only [respond, hk]; rfl
  | sendRequest payload hp hb => exact hdispatch (row := .sendRequest) hp hb rfl
  | sendResponse payload hp hb => exact hdispatch (row := .sendResponse) hp hb rfl
  | unknown type payload hp hb h4 =>
    obtain ⟨row, hr⟩ := Option.isSome_iff_exists.1 (rowOf_isSome type)
    exact (hdispatch hp hb hr).trans (exec_unknown hr h4)
  | tick hp hd => simp [perform, tick, hp, hd, State.countTick]
  | delayDone hp hd => simp [perform, delayDone, hp, hd, State.startTx]
  | txByte frame hl hp hf =>
    refine (txByte_of_frame hp hf).trans ((sendFrom_lt (by omega)).trans ?_)
    rw [if_neg (by omega)]
    rfl
  | txLast frame hl hp hf =>
    refine (txByte_of_frame hp hf).trans ((sendFrom_lt (by omega)).trans ?_)
    rw [if_pos hl]
    rfl

/-- A received signal of at least a repeat byte is one of the rows of type 1 (rules R148, R150). -/
theorem exists_transition_received {rep : Byte} {rest : List Byte} (hp : s.phase = .dispatch)
    (hb : BodyHolds s (1 :: rep :: rest)) : ∃ t, Transition .dispatch s t := by
  by_cases hc : rest.length % 2 = 0 ∨ s.cfg.oddPolicy = .ignore
  · cases hr : classify s.cfg (pairSamples rest).1 with
    | none => exact ⟨_, .receivedNoMatch rep rest hp hb hc hr⟩
    | some k =>
      cases hk : s.cfg.trans k with
      | none => exact ⟨_, .receivedMatch rep rest k hp hb hc hr hk⟩
      | some j => exact ⟨_, .receivedTranslate rep rest k j hp hb hc hr hk⟩
  · obtain ⟨hodd, hpolicy⟩ := not_or.1 hc
    have hreject : s.cfg.oddPolicy = .reject := by
      cases h : s.cfg.oddPolicy with
      | reject => rfl
      | ignore => exact absurd h hpolicy
    exact ⟨_, .receivedOdd rep rest hp hb (by omega) hreject⟩

/-- The dispatch of a complete body that is not empty is a row of the table, whatever its type. -/
theorem exists_transition_dispatch {type : Byte} {payload : List Byte} (hp : s.phase = .dispatch)
    (hb : BodyHolds s (type :: payload)) : ∃ t, Transition .dispatch s t := by
  by_cases h4 : 4 ≤ type.toNat
  · exact ⟨_, .unknown type payload hp hb h4⟩
  · have htype : type = 0 ∨ type = 1 ∨ type = 2 ∨ type = 3 := by bv_omega
    rcases htype with rfl | rfl | rfl | rfl
    · match payload with
      | [] => exact ⟨_, .messageShort [] hp hb (by simp)⟩
      | [only] => exact ⟨_, .messageShort [only] hp hb (by simp)⟩
      | subtype :: code :: extra => exact ⟨_, .message subtype code extra hp hb⟩
    · match payload with
      | [] => exact ⟨_, .receivedEmpty hp hb⟩
      | rep :: rest => exact exists_transition_received hp hb
    · exact ⟨_, .sendRequest payload hp hb⟩
    · exact ⟨_, .sendResponse payload hp hb⟩

/-- The byte accepted in an RX phase of a state that meets the invariant. -/
theorem exists_transition_rxByte (hs : Inv s) (hp : Receiving s) (b : Byte) : ∃ t, Transition (.rxByte b) s t := by
  rcases hp with hp | hp | hp
  · exact ⟨_, .len0Byte b hp⟩
  · by_cases hl : le16 s.lenLo b = 0
    · exact ⟨_, .len1Empty b hp hl⟩
    · exact ⟨_, .len1Byte b hp hl⟩
  · obtain ⟨hcount, -⟩ := hs.receiving hp
    by_cases hl : s.rxCnt.toNat + 1 = s.rxLen.toNat
    · by_cases hfit : s.rxLen.toNat ≤ s.cfg.bodyMax
      · exact ⟨_, .bodyLast b hp hl hfit⟩
      · exact ⟨_, .bodyOversize b hp hl (by omega)⟩
    · exact ⟨_, .bodyByte b hp (by omega)⟩

theorem exists_transition_rxTimeout (hp : Receiving s) : ∃ t, Transition .rxTimeout s t := by
  rcases hp with hp | hp | hp
  · exact ⟨_, .len0Timeout hp⟩
  · exact ⟨_, .len1Timeout hp⟩
  · exact ⟨_, .bodyTimeout hp⟩

/-- Rule R34(c): in `DISPATCH` the buffer holds a body with a type byte. -/
theorem Inv.bodyHolds (hs : Inv s) (hp : s.phase = .dispatch) : ∃ type payload, BodyHolds s (type :: payload) := by
  obtain ⟨hpos, hfit, -, hwritten⟩ := hs.complete hp
  obtain ⟨bytes, hb⟩ := bodyHolds_of_written hfit hwritten
  cases bytes with
  | nil => exact absurd hb.length (by simp; omega)
  | cons type payload => exact ⟨type, payload, hb⟩

/-- Rule R34 (d) and (e): in `TX` the frame of the target is defined and a byte of it is left. -/
theorem Inv.exists_frame (hs : Inv s) (hp : s.phase = .tx) :
    ∃ frame, txFrame s.cfg s.txTarget = .ok frame ∧ s.txIdx.toNat < frame.length ∧ frame.length ≤ 65536 := by
  obtain ⟨frame, hf, -, hlen⟩ := txFrame_of_target hs.cfgWf (hs.armed (.inr hp))
  exact ⟨frame, hf, txBytes_ok hf ▸ hs.sending hp, hlen⟩

theorem exists_transition_txByte (hs : Inv s) (hp : s.phase = .tx) : ∃ t, Transition .txByte s t := by
  obtain ⟨frame, hf, hlt, -⟩ := hs.exists_frame hp
  by_cases hl : s.txIdx.toNat + 1 = frame.length
  · exact ⟨_, .txLast frame hl hp hf⟩
  · exact ⟨_, .txByte frame (by omega) hp hf⟩

/-- In a state that meets the invariant every enabled step is a row of the table of rule R25. -/
theorem Inv.exists_transition (hs : Inv s) {a : Action} (h : enabled a s = true) : ∃ t, Transition a s t := by
  rcases enabled_iff.1 h with ⟨hp, ⟨b, rfl⟩ | rfl | rfl⟩ | ⟨hp, rfl⟩ | ⟨hp, ⟨hd, rfl⟩ | ⟨hd, rfl⟩⟩ | ⟨hp, rfl | rfl⟩
  · exact exists_transition_rxByte hs hp b
  · exact exists_transition_rxTimeout hp
  · exact ⟨_, .fail (by tauto)⟩
  · obtain ⟨type, payload, hb⟩ := hs.bodyHolds hp
    exact exists_transition_dispatch hp hb
  · exact ⟨_, .tick hp hd⟩
  · exact ⟨_, .delayDone hp hd⟩
  · exact exists_transition_txByte hs hp
  · exact ⟨_, .fail (.inr (.inr (.inr hp)))⟩

end Rows

end Sys2Proof.Machine

/-! PROOFS. The invariant of rule R34: what it asks of a block that has not failed, whatever the phase, and what each phase asks
beside; that the rows of the transition table keep it; and so every clock cycle and every run from reset. -/

namespace Sys2Proof.Machine

/-- The clauses of `Inv` that hold in every phase but `HALT` and do not name the phase. -/
structure Running (s : State) : Prop where
  cfgWf : s.cfg.wf = true
  canonical : Memory.wf s.body
  inBuffer : ∀ cell ∈ s.body, cell.1 < s.cfg.bodyMax
  counted : s.rxCnt.toNat ≤ s.rxLen.toNat
  unfailed : s.fault = false
  reported : ∀ j ∈ translations s.evLog, s.cfg.isTarget j
  targetWidth : s.txTarget < 2 ^ s.cfg.idxW
  delayWidth : s.delayCnt ≤ s.cfg.delayTicks

/-- Every translation reported has its whole frame in `tx_log`: rule R34(g) while no retransmission is in progress. -/
def AllSent (s : State) : Prop := s.txLog = framesOf s.cfg (translations s.evLog)

/-- Every translation reported but the last, `tx_target`, has its whole frame in `tx_log`, and the last has the first `n` bytes of
its own: rule R34(g) while a retransmission is in progress. -/
def PartSent (s : State) (n : Nat) : Prop :=
  ∃ sent, translations s.evLog = sent ++ [s.txTarget]
    ∧ s.txLog = framesOf s.cfg sent ++ (txBytes s.cfg s.txTarget).take n

section Phases

variable {s : State}

theorem Inv.running (hs : Inv s) (hp : s.phase ≠ .halt) : Running s :=
  { hs with unfailed := Bool.eq_false_iff.2 fun hf => hp (hs.halted.1 hf) }

theorem sentMatches_receiving (hp : Receiving s) : SentMatches s ↔ AllSent s := by
  rcases hp with hp | hp | hp <;> simp only [SentMatches, AllSent, hp]

theorem sentMatches_dispatch (hp : s.phase = .dispatch) : SentMatches s ↔ AllSent s := by
  simp only [SentMatches, AllSent, hp]

theorem sentMatches_delay (hp : s.phase = .delay) : SentMatches s ↔ PartSent s 0 := by
  simp only [SentMatches, PartSent, hp, List.take_zero, List.append_nil]

theorem sentMatches_tx (hp : s.phase = .tx) : SentMatches s ↔ PartSent s s.txIdx.toNat := by
  simp only [SentMatches, PartSent, hp]

theorem sentMatches_halt (hp : s.phase = .halt) :
    SentMatches s ↔
      AllSent s ∨ (PartSent s s.txIdx.toNat ∧ s.txIdx.toNat < (txBytes s.cfg s.txTarget).length) := by
  simp only [SentMatches, AllSent, PartSent, hp, exists_and_right, ← and_assoc]

theorem Inv.allSent (hs : Inv s) (hp : Receiving s) : AllSent s := (sentMatches_receiving hp).1 hs.sent

/-- Once as many bytes as the last frame has are sent, no translation lacks any. -/
theorem PartSent.allSent {n : Nat} (h : PartSent s n) (hn : (txBytes s.cfg s.txTarget).length ≤ n) : AllSent s := by
  obtain ⟨sent, hlast, hlog⟩ := h
  rw [AllSent, hlast, hlog, List.take_of_length_le hn]
  simp [framesOf]

/-- One byte more (rule R135). -/
theorem PartSent.send {n : Nat} (h : PartSent s n) (hn : n < (txBytes s.cfg s.txTarget).length) :
    PartSent (s.send (txBytes s.cfg s.txTarget)[n]) (n + 1) := by
  obtain ⟨sent, hlast, hlog⟩ := h
  refine ⟨sent, hlast, ?_⟩
  rw [send_txLog, hlog, List.append_assoc, List.take_append_getElem]
  rfl

/-- While a length is awaited nothing else is asked than that every frame has been sent. -/
theorem Running.inv_len (hs : Running s) (hp : s.phase = .rxLen0 ∨ s.phase = .rxLen1) (hsent : AllSent s) : Inv s :=
  have hne : s.phase ≠ .rxBody ∧ s.phase ≠ .dispatch ∧ s.phase ≠ .delay ∧ s.phase ≠ .tx ∧ s.phase ≠ .halt := by
    rcases hp with hp | hp <;> simp [hp]
  { hs with
    receiving := by simp [hne]
    complete := by simp [hne]
    armed := by simp [hne]
    sending := by simp [hne]
    halted := by simp [hs.unfailed, hne]
    sent := (sentMatches_receiving (hp.imp_right .inl)).2 hsent
    haltQuiet := by simp [hne] }

/-- R34(b). -/
theorem Running.inv_body (hs : Running s) (hp : s.phase = .rxBody) (hsent : AllSent s) (hlt : s.rxCnt.toNat < s.rxLen.toNat)
    (hwritten : ∀ i, i < s.rxCnt.toNat → i < s.cfg.bodyMax → (s.body.read i).isSome) : Inv s :=
  { hs with
    receiving := fun _ => ⟨hlt, hwritten⟩
    complete := by simp [hp]
    armed := by simp [hp]
    sending := by simp [hp]
    halted := by simp [hs.unfailed, hp]
    sent := (sentMatches_receiving (.inr (.inr hp))).2 hsent
    haltQuiet := by simp [hp] }

/-- R34(c). -/
theorem Running.inv_dispatch (hs : Running s) (hp : s.phase = .dispatch) (hsent : AllSent s) (hpos : 1 ≤ s.rxLen.toNat)
    (hfit : s.rxLen.toNat ≤ s.cfg.bodyMax) (hcount : s.rxCnt = s.rxLen)
    (hwritten : ∀ i, i < s.rxLen.toNat → (s.body.read i).isSome) : Inv s :=
  { hs with
    receiving := by simp [hp]
    complete := fun _ => ⟨hpos, hfit, hcount, hwritten⟩
    armed := by simp [hp]
    sending := by simp [hp]
    halted := by simp [hs.unfailed, hp]
    sent := (sentMatches_dispatch hp).2 hsent
    haltQuiet := by simp [hp] }

theorem PartSent.target_reported {n : Nat} (h : PartSent s n) : s.txTarget ∈ translations s.evLog := by
  obtain ⟨sent, hlast, -⟩ := h
  simp [hlast]

/-- R34(d), and in `DELAY` the last translation has none of its frame. -/
theorem Running.inv_delay (hs : Running s) (hp : s.phase = .delay) (hsent : PartSent s 0) : Inv s :=
  { hs with
    receiving := by simp [hp]
    complete := by simp [hp]
    armed := fun _ => hs.reported _ hsent.target_reported
    sending := by simp [hp]
    halted := by simp [hs.unfailed, hp]
    sent := (sentMatches_delay hp).2 hsent
    haltQuiet := by simp [hp] }

/-- R34 (d) and (e), and in `TX` the last translation has the first `tx_idx` bytes of its frame. -/
theorem Running.inv_tx (hs : Running s) (hp : s.phase = .tx) (hsent : PartSent s s.txIdx.toNat)
    (hlt : s.txIdx.toNat < (txBytes s.cfg s.txTarget).length) : Inv s :=
  { hs with
    receiving := by simp [hp]
    complete := by simp [hp]
    armed := fun _ => hs.reported _ hsent.target_reported
    sending := fun _ => hlt
    halted := by simp [hs.unfailed, hp]
    sent := (sentMatches_tx hp).2 hsent
    haltQuiet := by simp [hp] }

/-- The reset state meets the invariant, whatever the transport holds and brings (rules R33, R231). -/
theorem inv_resetWith {c : Cfg} (hwf : c.wf = true) (held : List Byte) (inputs : List CycleInput) :
    Inv { State.resetWith c with rxHeld := held, inputs := inputs } :=
  Running.inv_len
    { cfgWf := hwf
      canonical := wf_nil
      inBuffer := by simp
      counted := by simp
      unfailed := rfl
      reported := by simp [translations]
      targetWidth := by simp
      delayWidth := by simp }
    (.inl rfl) rfl

/-- The transport, the inputs to come and, once it is clear, the event port are no part of the invariant. -/
theorem Inv.env (hs : Inv s) (held : List Byte) (inputs : List CycleInput) :
    Inv { s with rxHeld := held, inputs := inputs, evPort := none } :=
  { hs with haltQuiet := fun _ => rfl }

theorem Inv.at_beginCycle (hs : Inv s) : Inv s.beginCycle := hs.env _ _

theorem Inv.at_consume (hs : Inv s) (a : Action) : Inv (consume a s.beginCycle) := by
  cases a <;> exact hs.env _ _

end Phases

section Kept

variable {s t : State} {a : Action}

/-- A body byte stored below the declared length (rules R30, R34(a)). -/
theorem Running.storeBody (hs : Running s) (b : Byte) (hlt : s.rxCnt.toNat < s.rxLen.toNat) : Running (s.storeBody b) :=
  { hs with
    canonical := by
      rw [storeBody_body]
      split
      · exact wf_write _ _ hs.canonical
      · exact hs.canonical
    inBuffer := fun cell hcell => by
      rw [storeBody_body] at hcell
      split at hcell
      · next hfit =>
        rcases mem_write hcell with rfl | hcell
        · exact hfit
        · exact hs.inBuffer cell hcell
      · exact hs.inBuffer cell hcell
    counted := by
      rw [storeBody_rxCnt, rxCnt_succ hlt]
      exact hlt }

/-- With the byte just stored, the bytes accepted so far are in the buffer. -/
theorem written_storeBody (b : Byte) (hwritten : ∀ i, i < s.rxCnt.toNat → i < s.cfg.bodyMax → (s.body.read i).isSome)
    {i : Nat} (hi : i < s.rxCnt.toNat + 1) (hfit : i < s.cfg.bodyMax) : ((s.storeBody b).body.read i).isSome := by
  rw [storeBody_read]
  split
  · rfl
  · exact hwritten i (by omega) hfit

/-- The rows of `RxByte(b)` in `RX_BODY` (rule R25). -/
theorem Inv.rxByte_body (hs : Inv s) (hp : s.phase = .rxBody) (b : Byte) : Inv (rxByte b s) := by
  obtain ⟨hlt, hwritten⟩ := hs.receiving hp
  have hrun := (hs.running (by simp [hp])).storeBody b hlt
  have hsent : AllSent s := hs.allSent (.inr (.inr hp))
  have hcount : (s.storeBody b).rxCnt.toNat = s.rxCnt.toNat + 1 := rxCnt_succ hlt
  by_cases hlast : s.rxCnt.toNat + 1 = s.rxLen.toNat
  · rw [rxByte_body_last b hp hlast]
    split
    · next hfit =>
      refine Running.inv_dispatch { hrun with } rfl hsent (by simp; omega) hfit
        (BitVec.eq_of_toNat_eq (hcount.trans hlast)) fun i hi => ?_
      exact written_storeBody b hwritten (hlast ▸ hi) (Nat.lt_of_lt_of_le hi hfit)
    · exact Running.inv_len { hrun with } (.inl rfl) hsent
  · rw [rxByte_body_more b hp hlast]
    refine hrun.inv_body hp hsent (by rw [hcount, storeBody_rxLen]; omega) fun i hi hfit => ?_
    exact written_storeBody b hwritten (hcount ▸ hi) hfit

/-- The rows of a dispatch that are done with the frame after one event (rule R25). -/
theorem Inv.emit_len0 (hs : Inv s) (hp : s.phase = .dispatch) {e : Event} (he : translations [e] = []) :
    Inv ((s.emit e).setPhase .rxLen0) := by
  have htranslations : translations (s.evLog ++ [e]) = translations s.evLog := by simp [he]
  exact Running.inv_len { hs.running (by simp [hp]) with reported := by simpa [he] using hs.reported } (.inl rfl)
    (((sentMatches_dispatch hp).1 hs.sent).trans (congrArg (framesOf s.cfg) htranslations.symm))

/-- The row of a dispatch that arms a retransmission (rules R25, R183). -/
theorem Inv.translate (hs : Inv s) (hp : s.phase = .dispatch) {k j : Nat} (hk : s.cfg.trans k = some j) :
    Inv ((s.emit (.translate k j)).arm j s.cfg.delayTicks) := by
  have htarget : s.cfg.isTarget j := ⟨k, hk⟩
  have htranslations : translations (s.evLog ++ [.translate k j]) = translations s.evLog ++ [j] := translations_append _ _
  have hsent : AllSent s := (sentMatches_dispatch hp).1 hs.sent
  refine Running.inv_delay
    { hs.running (by simp [hp]) with
      reported := fun i hi => ?_
      targetWidth := target_lt hs.cfgWf htarget
      delayWidth := Nat.le_refl _ }
    rfl ⟨_, htranslations, hsent.trans (List.append_nil _).symm⟩
  rcases List.mem_append.1 (htranslations ▸ hi) with hi | hi
  · exact hs.reported i hi
  · exact List.mem_singleton.1 hi ▸ htarget

/-- The row of a failure: a halt keeps what has been sent, in the receive phases all of it, in `TX` a proper part (rules R200, R203). -/
theorem Inv.halt (hs : Inv s) (hq : s.evPort = none)
    (hp : s.phase = .rxLen0 ∨ s.phase = .rxLen1 ∨ s.phase = .rxBody ∨ s.phase = .tx) :
    Inv { s with fault := true, phase := .halt } := by
  have hsent : AllSent s ∨ (PartSent s s.txIdx.toNat ∧ s.txIdx.toNat < (txBytes s.cfg s.txTarget).length) := by
    rcases hp with hp | hp | hp | hp
    · exact .inl (hs.allSent (.inl hp))
    · exact .inl (hs.allSent (.inr (.inl hp)))
    · exact .inl (hs.allSent (.inr (.inr hp)))
    · exact .inr ⟨(sentMatches_tx hp).1 hs.sent, hs.sending hp⟩
  exact { hs with
    receiving := by simp
    complete := by simp
    armed := by simp
    sending := by simp
    halted := by simp
    sent := (sentMatches_halt rfl).2 hsent
    haltQuiet := fun _ => hq }

/-- The rows of `TxByte` (rules R25, R135). -/
theorem Inv.of_sendFrom (hs : Inv s) (hp : s.phase = .tx) {frame : List Byte} (hf : txFrame s.cfg s.txTarget = .ok frame)
    (h : sendFrom frame s = .next t) : Inv t := by
  obtain ⟨_, hf', hlt, hlen⟩ := hs.exists_frame hp
  obtain rfl : frame = _ := Except.ok.inj (hf.symm.trans hf')
  obtain rfl := txBytes_ok hf
  have hsucc : (s.txIdx + 1).toNat = s.txIdx.toNat + 1 := txIdx_succ (Nat.lt_of_lt_of_le hlt hlen)
  have hsent := ((sentMatches_tx hp).1 hs.sent).send hlt
  have hrun := hs.running (by simp [hp])
  rw [sendFrom_lt hlt] at h
  cases h
  split
  · next hlast => exact Running.inv_len { hrun with } (.inl rfl) (hsent.allSent (Nat.le_of_eq hlast.symm))
  · next hmore => exact Running.inv_tx { hrun with } hp (by rwa [send_txIdx, hsucc]) (by simp; omega)

/-- Each row of the transition table keeps the invariant. -/
theorem Inv.of_transition (hs : Inv s) (hq : s.evPort = none) (h : Transition a s t) : Inv t := by
  have hrun : s.phase ≠ .halt → Running s := hs.running
  have hperform := perform_of_transition h
  cases h with
  | len0Byte b hp => exact Running.inv_len { hrun (by simp [hp]) with } (.inr rfl) (hs.allSent (.inl hp))
  | len0Timeout hp => exact hs
  | len1Byte b hp hl =>
    have hpos : 0 < (le16 s.lenLo b).toNat := Nat.pos_of_ne_zero fun h0 => hl (BitVec.eq_of_toNat_eq h0)
    exact Running.inv_body { hrun (by simp [hp]) with counted := by simp } rfl (hs.allSent (.inr (.inl hp))) hpos (by simp)
  | len1Empty b hp hl =>
    exact Running.inv_len { hrun (by simp [hp]) with counted := by simp } (.inl rfl) (hs.allSent (.inr (.inl hp)))
  | len1Timeout hp | bodyTimeout hp =>
    exact Running.inv_len { hrun (by simp [hp]) with } (.inl rfl) (hs.allSent (by simp [Receiving, hp]))
  | bodyByte b hp | bodyLast b hp | bodyOversize b hp =>
    exact Host.Outcome.next.inj hperform ▸ hs.rxByte_body hp b
  | fail hp => exact hs.halt hq hp
  | message _ _ _ hp | messageShort _ hp | receivedEmpty hp | receivedOdd _ _ hp | receivedNoMatch _ _ hp | receivedMatch _ _ _ hp
  | unknown _ _ hp =>
    exact hs.emit_len0 hp rfl
  | receivedTranslate rep rest k j hp hb hc hr hk => exact hs.translate hp hk
  | sendRequest _ hp | sendResponse _ hp =>
    exact Running.inv_len { hrun (by simp [hp]) with } (.inl rfl) ((sentMatches_dispatch hp).1 hs.sent)
  | tick hp hd =>
    exact Running.inv_delay
      { hrun (by simp [hp]) with delayWidth := Nat.le_trans (Nat.sub_le _ _) hs.delayWidth } hp
      ((sentMatches_delay hp).1 hs.sent)
  | delayDone hp hd =>
    obtain ⟨frame, hf, hlen, -⟩ := txFrame_of_target hs.cfgWf (hs.armed (.inl hp))
    refine Running.inv_tx { hrun (by simp [hp]) with } rfl ((sentMatches_delay hp).1 hs.sent) ?_
    simp only [txBytes_ok hf]
    exact Nat.lt_of_lt_of_le (by decide) hlen
  | txByte frame _ hp hf | txLast frame _ hp hf =>
    exact hs.of_sendFrom hp hf ((txByte_of_frame hp hf).symm.trans hperform)

/-- From a state that meets the invariant a clock cycle answers a next state that meets it (rule R34). -/
theorem Inv.exists_step (hs : Inv s) : ∃ t, step s = .next t ∧ Inv t := by
  cases hc : choose s.cycleInput s.beginCycle with
  | reset => exact ⟨s.beginCycle.resetBlock, by simp [step, hs.cfgWf, hc], inv_resetWith hs.cfgWf _ _⟩
  | idle => exact ⟨_, by simp [step, hs.cfgWf, hc], hs.at_beginCycle⟩
  | act a =>
    obtain ⟨hrst, hstep⟩ := choose_act hc
    have henabled : enabled a (consume a s.beginCycle) = true :=
      (enabled_congr (by simp) (by simp)).trans (enabled_of_chooseStep hstep)
    have hbegin := hs.at_consume a
    obtain ⟨t, ht⟩ := hbegin.exists_transition henabled
    exact ⟨t, (step_act hs.cfgWf hrst hstep).trans (perform_of_transition ht), hbegin.of_transition (by simp) ht⟩

/-- Rule R34 for whole runs: a run from a state that meets the invariant answers one that does, with the same configuration. -/
theorem Inv.exists_run (hs : Inv s) (n : Nat) : ∃ t, core.run n s = .next t ∧ Inv t ∧ t.cfg = s.cfg := by
  induction n with
  | zero => exact ⟨s, rfl, hs, rfl⟩
  | succ n ih =>
    obtain ⟨t, hrun, ht, hcfg⟩ := ih
    obtain ⟨u, hstep, hu⟩ := ht.exists_step
    exact ⟨u, run_snoc n s t u hrun hstep, hu, (step_cfg hstep).trans hcfg⟩

theorem inv_atReset (hwf : CfgWellFormed s) (h : AtReset s) : Inv s := by
  rw [h]
  exact inv_resetWith hwf _ _

theorem Reached.inv (h : Reached s) : Inv s := by
  obtain ⟨start, n, hwf, hreset, hrun⟩ := h
  obtain ⟨t, ht, hinv, -⟩ := (inv_atReset hwf hreset).exists_run n
  cases hrun.symm.trans ht
  exact hinv

end Kept

end Sys2Proof.Machine

/-! PROOFS. What a dispatch reads of the body buffer (rules R31, R121), which inputs a cycle reads (rules R24, R204, R205), and what sets
and clears the flag (rule R27). -/

namespace Sys2Proof.Machine

section Reads

variable {s t : State}

/-- A read of a range below `rx_len` does not see the buffer beyond it. -/
theorem readRange_body {m : Memory} {count index : Nat}
    (h : ∀ i, i < index + count → m.read i = s.body.read i) :
    State.readRange { s with body := m } index count = s.readRange index count := by
  induction count generalizing index with
  | zero => rfl
  | succ n ih =>
    have hbyte : State.readBody { s with body := m } index = s.readBody index := by
      simp only [State.readBody, h index (by omega)]
    have hrest : State.readRange { s with body := m } (index + 1) n = s.readRange (index + 1) n :=
      ih fun i hi => h i (by omega)
    simp only [State.readRange, hbyte, hrest]

theorem fetch_body {m : Memory} (h : ∀ i, i < s.rxLen.toNat → m.read i = s.body.read i) :
    fetch { s with body := m } = fetch s := by
  have hpacket : State.packet { s with body := m } = s.packet := readRange_body (by simpa using h)
  simp only [fetch, hpacket]

theorem respond_body (result : Option Nat) (rep : Byte) (samples : List Half) (m : Memory) :
    respond result rep samples { s with body := m } = { respond result rep samples s with body := m } := by
  cases result with
  | none => rfl
  | some k =>
    simp only [respond]
    cases s.cfg.trans k <;> rfl

/-- No meaning reads or writes the body buffer: the instruction has its operands already (rule R145). -/
theorem exec_body {i : Instr} (m : Memory) (h : exec i s = .next t) :
    exec i { s with body := m } = .next { t with body := m } := by
  have hclassify : ∀ rep samples, classifyAndRespond rep samples s = .next t →
      classifyAndRespond rep samples { s with body := m } = .next { t with body := m } := by
    intro rep samples h
    cases h
    exact congrArg Host.Outcome.next (respond_body _ rep samples m)
  cases i with
  | message form => cases form <;> (cases h; rfl)
  | received form =>
    cases form with
    | empty => cases h; rfl
    | whole rep samples => exact hclassify rep samples h
    | odd rep samples trailing =>
      simp only [exec, execReceived] at h ⊢
      cases hp : s.cfg.oddPolicy with
      | reject => simp only [hp] at h ⊢; cases h; rfl
      | ignore => simp only [hp] at h ⊢; exact hclassify rep samples h
  | _ => cases h; rfl

theorem dispatchStep_of_fetch {i : Instr} (hp : s.phase = .dispatch) (hf : fetch s = .ok i) : dispatchStep s = exec i s := by
  simp [dispatchStep, hp, hf]

theorem dispatchStep_inv (hp : s.phase = .dispatch) (h : dispatchStep s = .next t) :
    ∃ i, fetch s = .ok i ∧ exec i s = .next t := by
  cases hf : fetch s with
  | ok i => exact ⟨i, rfl, (dispatchStep_of_fetch hp hf).symm.trans h⟩
  | error f => simp [dispatchStep, hp, hf] at h

theorem dispatchStep_body {m : Memory} (hp : s.phase = .dispatch) (hm : ∀ i, i < s.rxLen.toNat → m.read i = s.body.read i)
    (h : dispatchStep s = .next t) : dispatchStep { s with body := m } = .next { t with body := m } := by
  obtain ⟨i, hf, hi⟩ := dispatchStep_inv hp h
  exact (dispatchStep_of_fetch (s := { s with body := m }) hp ((fetch_body hm).trans hf)).trans (exec_body m hi)

end Reads

theorem beginCycle_of_arrive {s : State} {c d : CycleInput} {rest : List CycleInput} (hs : s.inputs = c :: rest)
    (ha : d.arrive = c.arrive) : State.beginCycle { s with inputs := d :: rest } = s.beginCycle := by
  simp [State.beginCycle, State.cycleInput, hs, ha]

/-- The inputs that the phase does not sample play no part in the step a cycle selects (rules R51, R204). -/
theorem choose_congr {s : State} {c d : CycleInput} (hrst : d.rst = c.rst)
    (h : (Receiving s ∧ d.xportFail = c.xportFail ∧ d.rxTimeout = c.rxTimeout)
      ∨ (s.phase = .dispatch ∧ d.dispatchBusy = c.dispatchBusy)
      ∨ s.phase = .delay
      ∨ (s.phase = .tx ∧ d.xportFail = c.xportFail ∧ d.txReady = c.txReady)
      ∨ s.phase = .halt) : choose d s = choose c s := by
  have hstep : chooseStep d s = chooseStep c s := by
    rcases h with ⟨hp, hf, ht⟩ | ⟨hp, hb⟩ | hp | ⟨hp, hf, hr⟩ | hp
    · simp only [chooseStep_receiving hp, chooseRx, hf, ht]
    · simp only [chooseStep, hp, hb]
    · simp only [chooseStep, hp]
    · simp only [chooseStep, hp, hf, hr]
    · simp only [chooseStep, hp]
  simp only [choose, hrst, hstep]

/-- A step changes the flag in one way only: a failure sets it (rule R27). -/
theorem perform_fault {s t : State} {a : Action} (h : perform a s = .next t) :
    t.fault = s.fault ∨ (a = .fail ∧ t.fault = true) := by
  rcases perform_events h with ⟨-, -, -, -, hfault⟩ | ⟨-, -, -, -, hfault, -⟩
  · exact hfault
  · exact .inl hfault

/-- A failure is taken in an I/O phase that samples it, and nowhere else (rules R24, R204). -/
theorem chooseStep_fail {c : CycleInput} {s : State} (h : chooseStep c s = .act .fail) :
    c.xportFail = true ∧ (s.phase = .rxLen0 ∨ s.phase = .rxLen1 ∨ s.phase = .rxBody ∨ s.phase = .tx) := by
  rcases chooseStep_act h with ⟨hp, ha⟩ | ⟨-, -, ha⟩ | ⟨-, -, ha⟩ | ⟨-, -, ha⟩ | ⟨hp, ha⟩
  · exact ⟨by simpa using ha, by tauto⟩
  · cases ha
  · cases ha
  · cases ha
  · exact ⟨by simpa using ha, .inr (.inr (.inr hp))⟩

/-- In a state that meets the invariant either every translation has its whole frame, or the last lacks some of it, which is so in
`DELAY`, `TX` and `HALT` only; and some of it has been sent in the last two only (rules R34(g), R203). -/
theorem Inv.allSent_or_partSent {s : State} (hs : Inv s) :
    AllSent s
      ∨ ∃ n, PartSent s n ∧ n < (txBytes s.cfg s.txTarget).length
          ∧ (s.phase = .delay ∨ s.phase = .tx ∨ s.phase = .halt) ∧ (s.phase = .delay → n = 0) := by
  cases hp : s.phase with
  | rxLen0 => exact .inl (hs.allSent (.inl hp))
  | rxLen1 => exact .inl (hs.allSent (.inr (.inl hp)))
  | rxBody => exact .inl (hs.allSent (.inr (.inr hp)))
  | dispatch => exact .inl ((sentMatches_dispatch hp).1 hs.sent)
  | delay =>
    obtain ⟨frame, hf, hlen, -⟩ := txFrame_of_target hs.cfgWf (hs.armed (.inl hp))
    exact .inr ⟨0, (sentMatches_delay hp).1 hs.sent, by rw [txBytes_ok hf]; omega, .inl rfl, fun _ => rfl⟩
  | tx => exact .inr ⟨_, (sentMatches_tx hp).1 hs.sent, hs.sending hp, .inr (.inl rfl), by simp⟩
  | halt =>
    rcases (sentMatches_halt hp).1 hs.sent with hall | ⟨hpart, hlt⟩
    · exact .inl hall
    · exact .inr ⟨_, hpart, hlt, .inr (.inr rfl), by simp⟩

end Sys2Proof.Machine

namespace Sys2Proof.Proofs

open Sys2Proof Sys2Proof.Machine

/-- Settles O58: the step a cycle selects is enabled, so it is a row of the transition table, and every row keeps the invariant. -/
theorem everyStepKeepsTheInvariant : Obligations.EveryStepKeepsTheInvariant :=
  fun _ hs => hs.exists_step

/-- Settles O15: the fetch reads below `rx_len` only, and no meaning reads the buffer. -/
theorem dispatchReadsOnlyTheDeclaredBody : Obligations.DispatchReadsOnlyTheDeclaredBody := by
  intro s m hp hrst hm t h
  obtain ⟨hwf, ⟨hr, -⟩ | ⟨-, hc, rfl⟩ | ⟨a, -, hc, h⟩⟩ := step_next h
  · simp [hrst] at hr
  · exact step_idle (s := { s with body := m }) hwf hrst hc
  · obtain rfl : a = .dispatch := by simpa [enabled_iff, Receiving, hp] using enabled_of_chooseStep hc
    exact (step_act (s := { s with body := m }) hwf hrst hc).trans (dispatchStep_body (s := s.beginCycle) hp hm h)

/-- Settles O45: the two cycles begin alike and select the same step. -/
theorem unsampledInputsHaveNoEffect : Obligations.UnsampledInputsHaveNoEffect := by
  intro s c d rest hinputs hrst harrive hsampled
  have hc : s.cycleInput = c := by simp [State.cycleInput, hinputs]
  have hd : State.cycleInput { s with inputs := d :: rest } = d := rfl
  have hchoose : choose d s.beginCycle = choose c s.beginCycle := choose_congr hrst hsampled
  simp only [step, beginCycle_of_arrive hinputs harrive, hc, hd, hchoose]

/-- Settles O47: the table of R24, clause by clause. -/
theorem phaseEnablesItsSteps : Obligations.PhaseEnablesItsSteps := by
  intro s a
  refine ⟨enabled_iff, perform_of_not_enabled, fun c hc => ?_⟩
  obtain ⟨hrst, hstep⟩ := choose_act hc
  exact ⟨hrst, enabled_of_chooseStep hstep⟩

/-- Settles O48: each row is what `perform` answers, so a row that exists for an enabled step is that step. -/
theorem transitionTableIsFollowed : Obligations.TransitionTableIsFollowed := by
  refine ⟨fun _ _ _ => perform_of_transition, fun a s hs ha => ?_⟩
  obtain ⟨t, ht⟩ := hs.exists_transition ha
  exact ⟨t, perform_of_transition ht, ht⟩

/-- Settles O49: a reset clears the flag, an idle cycle keeps it, and of the steps only a failure changes it. -/
theorem faultFlagFollowsFailureAndReset : Obligations.FaultFlagFollowsFailureAndReset := by
  intro s t h
  obtain ⟨-, ⟨hrst, rfl⟩ | ⟨-, -, rfl⟩ | ⟨a, hrst, hc, h⟩⟩ := step_next h
  · simp [hrst]
  · simp +contextual
  · rcases perform_fault h with hkept | ⟨rfl, hset⟩
    · simp +contextual [hkept]
    · exact ⟨fun _ _ => ⟨hrst, chooseStep_fail (s := s.beginCycle) hc⟩, by simp [hset]⟩

/-- Settles O59, by induction on the number of cycles. -/
theorem noRunStopsAndAllMeetTheInvariant : Obligations.NoRunStopsAndAllMeetTheInvariant :=
  fun _ n hwf hreset => (inv_atReset hwf hreset).exists_run n

/-- Settles O60: what the invariant says of `tx_log`, with the part of the last frame named. -/
theorem sentFramesFollowTranslations : Obligations.SentFramesFollowTranslations := by
  intro s h
  have hs := h.inv
  rcases hs.allSent_or_partSent with hall | ⟨n, hpart, hlt, hp, hdelay⟩
  · exact ⟨translations s.evLog, [], hall.trans (List.append_nil _).symm, hs.reported, by simp, .inl rfl, fun _ => rfl⟩
  · have htarget : s.cfg.isTarget s.txTarget := hs.reported _ hpart.target_reported
    obtain ⟨frame, hf, -⟩ := txFrame_of_target hs.cfgWf htarget
    obtain rfl := txBytes_ok hf
    obtain ⟨sent, hlast, hlog⟩ := hpart
    refine ⟨sent, _, hlog, fun j hj => hs.reported j (by simp [hlast, hj]), fun hne => ⟨?_, ?_⟩, .inr ⟨_, hlast⟩, ?_⟩
    · exact hp.resolve_left fun hd => hne (by simp [hdelay hd])
    · have hlen : (List.take n (txBytes s.cfg s.txTarget)).length = n := List.length_take_of_le hlt.le
      exact ⟨_, _, htarget, hf, by rwa [hlen], by rw [hlen]⟩
    · rcases hp with hp | hp | hp <;> simp [hp]

/-- Settles O57. -/
theorem invariantHoldsAtReset : Obligations.InvariantHoldsAtReset :=
  fun _ hwf hreset => inv_atReset hwf hreset

/-- Settles O1: `State.reset` is `resetWith` of a configuration, and each of its fields has the value of R33. -/
theorem resetLeavesTheSpecValues : Obligations.ResetLeavesTheSpecValues := by
  refine ⟨fun s hs => ?_, fun c => rfl⟩
  obtain ⟨c, rfl⟩ : ∃ c, s = State.resetWith c := hs.elim (fun h => ⟨_, h⟩) id
  exact ⟨rfl, rfl, rfl, rfl, rfl, rfl, rfl, rfl, rfl, rfl, rfl, rfl, rfl⟩

end Sys2Proof.Proofs

/-! PROOFS. One clock cycle, by what it does: a cycle that takes a row of the transition table, what a cycle takes from the transport
(rules R52, R63), what it emits (rules R56, R67), and the dispatch of a decoded body (rule R145). -/

namespace Sys2Proof.Machine

section Cycles

variable {s t : State}

/-- A cycle without reset whose selected step is a row of the table of rule R25. -/
theorem step_of_transition {a : Action} (hwf : s.cfg.wf = true) (hrst : s.cycleInput.rst = false)
    (hc : chooseStep s.cycleInput s.beginCycle = .act a) (h : Transition a (consume a s.beginCycle) t) : step s = .next t :=
  (step_act hwf hrst hc).trans (perform_of_transition h)

theorem chooseStep_dispatch {c : CycleInput} :
    chooseStep c s = .act .dispatch ↔ s.phase = .dispatch ∧ c.dispatchBusy = false := by
  constructor
  · intro h
    rcases chooseStep_act h with ⟨-, ha⟩ | ⟨hp, hb, -⟩ | ⟨-, -, ha⟩ | ⟨-, -, ha⟩ | ⟨-, ha⟩
    · simp at ha
    · exact ⟨hp, hb⟩
    · cases ha
    · cases ha
    · simp at ha
  · rintro ⟨hp, hb⟩
    simp [chooseStep, hp, hb]

/-- A byte is taken in an RX phase only, without a failure, and it is the one offered (rules R24, R52, R210). -/
theorem chooseStep_rxByte {c : CycleInput} {b : Byte} (h : chooseStep c s = .act (.rxByte b)) :
    Receiving s ∧ c.xportFail = false ∧ ∃ rest, s.rxHeld = b :: rest := by
  rcases chooseStep_act h with ⟨hp, ha⟩ | ⟨-, -, ha⟩ | ⟨-, -, ha⟩ | ⟨-, -, ha⟩ | ⟨-, ha⟩
  · obtain ⟨-, ha⟩ | ⟨hf, b', rest, hh, ha⟩ | ⟨-, -, -, ha⟩ := ha
    · cases ha
    · cases ha
      exact ⟨hp, hf, rest, hh⟩
    · cases ha
  · cases ha
  · cases ha
  · cases ha
  · simp at ha

/-- Rule R52: `rx_ready` is 1 in the three RX phases. -/
theorem rxReady_iff : s.rxReady = true ↔ Receiving s := by
  cases hp : s.phase <;> simp [State.rxReady, Receiving, hp]

/-- What the transport holds is no concern of a step: an accepted byte has left it before (`consume`). -/
theorem perform_rxHeld {a : Action} (h : perform a s = .next t) : t.rxHeld = s.rxHeld := by
  rcases perform_events h with ⟨-, -, hheld, -⟩ | ⟨-, -, hheld, -⟩ <;> exact hheld

/-- The instruction in the buffer, by the packet and the decoder (rule R145). -/
theorem fetch_of_packet {bytes : List Byte} {i : Instr} (hp : s.packet = .ok bytes) (hd : decodeBody bytes = .ok i) :
    fetch s = .ok i := by
  cases bytes with
  | nil => cases hd
  | cons type payload => simp [fetch, hp, hd]

/-- The row of the table that a complete body takes is its dispatch cycle. -/
theorem Dispatches.step_of_transition {bytes : List Byte} (hs : Dispatches s bytes)
    (h : Transition .dispatch s.beginCycle t) : step s = .next t :=
  Machine.step_of_transition hs.cfgWf hs.noReset (chooseStep_dispatch.2 ⟨hs.inDispatch, hs.notBusy⟩) h

/-- A cycle of `DELAY` with ticks left (rules R57, R184). -/
theorem step_tick (hwf : s.cfg.wf = true) (hrst : s.cycleInput.rst = false) (hp : s.phase = .delay) (hd : 0 < s.delayCnt) :
    step s = .next { s.beginCycle with delayCnt := s.delayCnt - 1 } :=
  step_of_transition hwf hrst (by simp [chooseStep, hp, Nat.ne_of_gt hd]) (.tick (s := s.beginCycle) hp hd)

/-- The cycle that ends the delay (rule R185). -/
theorem step_delayDone (hwf : s.cfg.wf = true) (hrst : s.cycleInput.rst = false) (hp : s.phase = .delay)
    (hd : s.delayCnt = 0) : step s = .next s.beginCycle.startTx :=
  step_of_transition hwf hrst (by simp [chooseStep, hp, hd]) (.delayDone (s := s.beginCycle) hp hd)

/-- A cycle of `TX` in which the transport accepts the offered byte (rule R135). -/
theorem step_txByte {frame : List Byte} (hwf : s.cfg.wf = true) (hcalm : Calm s) (hp : s.phase = .tx)
    (hready : s.cycleInput.txReady = true) (hf : txFrame s.cfg s.txTarget = .ok frame) (h : s.txIdx.toNat < frame.length) :
    step s = .next
      { s.beginCycle with
        txLog := s.txLog ++ [frame[s.txIdx.toNat]]
        txIdx := s.txIdx + 1
        phase := if s.txIdx.toNat + 1 = frame.length then .rxLen0 else .tx } := by
  obtain ⟨hrst, hfail⟩ := hcalm
  have hc : chooseStep s.cycleInput s.beginCycle = .act .txByte := by simp [chooseStep, hp, hfail, hready]
  by_cases hl : s.txIdx.toNat + 1 = frame.length
  · rw [if_pos hl]
    exact step_of_transition hwf hrst hc (.txLast (s := s.beginCycle) frame hl hp hf)
  · rw [if_neg hl, ← hp]
    exact step_of_transition hwf hrst hc (.txByte (s := s.beginCycle) frame (by simp; omega) hp hf)

/-- A cycle of `TX` that neither fails nor is accepted (rules R55, R136). -/
theorem step_txStall (hwf : s.cfg.wf = true) (hcalm : Calm s) (hp : s.phase = .tx) (hready : s.cycleInput.txReady = false) :
    step s = .next s.beginCycle :=
  step_idle hwf hcalm.1 (by simp [chooseStep, hp, hcalm.2, hready])

/-- The dispatch of samples that match index `k`, which translates to `j` (rules R148, R182, R183). -/
theorem Dispatches.step_translate {rep : Byte} {samples : List Half} {k j : Nat}
    (hs : Dispatches s (1 :: rep :: sampleBytes (samples.map (·.toNat)))) (hk : classify s.cfg samples = some k)
    (hj : s.cfg.trans k = some j) :
    step s = .next ((s.beginCycle.emit (.translate k j)).arm j s.cfg.delayTicks) := by
  have hpairs : pairSamples (sampleBytes (samples.map (·.toNat))) = (samples, none) := by
    simpa using pairSamples_sampleBytes samples none
  exact hs.step_of_transition
    (.receivedTranslate (s := s.beginCycle) rep _ k j hs.inDispatch hs.body.beginCycle (.inl (by simp))
      (by rw [hpairs]; exact hk) hj)

end Cycles

end Sys2Proof.Machine

/-! PROOFS. Runs of cycles that accept no received byte: the delay and the transmission of a frame (rules R184 to R186, R190). -/

namespace Sys2Proof.Machine

/-- `s` after `n` cycles in which the block does nothing: the inputs are taken, and what arrives is with the transport. -/
def State.elapse (s : State) (n : Nat) : State :=
  { s with
    inputs := s.inputs.drop n
    rxHeld := s.rxHeld ++ s.arrivals n
    evPort := if n = 0 then s.evPort else none }

/-- Between `s` and `t` there are `n` cycles that accept no received byte. -/
structure Unread (s : State) (n : Nat) (t : State) : Prop where
  inputs : t.inputs = s.inputs.drop n
  rxHeld : t.rxHeld = s.rxHeld ++ s.arrivals n

section Runs

variable {s t u : State}

theorem Unread.trans {m n : Nat} (h : Unread s m t) (h' : Unread t n u) : Unread s (m + n) u where
  inputs := by rw [h'.inputs, h.inputs, List.drop_drop]
  rxHeld := by rw [h'.rxHeld, h.rxHeld]; simp [State.arrivals, h.inputs, List.take_add]

theorem unread_beginCycle (s : State) : Unread s 1 s.beginCycle where
  inputs := by simp
  rxHeld := by rw [beginCycle_rxHeld, arrivals_succ (t := s.beginCycle) 0 rfl, arrivals_zero, List.append_nil]

theorem unread_elapse (s : State) (n : Nat) : Unread s n (s.elapse n) := ⟨rfl, rfl⟩

theorem elapse_zero (s : State) : s.elapse 0 = s := by simp [State.elapse]

theorem elapse_cycleInput (s : State) (n : Nat) : (s.elapse n).cycleInput = s.inputAt n := cycleInput_drop rfl

/-- `beginCycle` is one more cycle of doing nothing. -/
theorem elapse_beginCycle (s : State) (n : Nat) : (s.elapse n).beginCycle = s.elapse (n + 1) := by
  simp only [State.beginCycle, elapse_cycleInput]
  simp [State.elapse, arrivals_snoc]

/-- The inputs of the coming cycles when `m` have been taken. -/
theorem inputAt_drop {m : Nat} (h : t.inputs = s.inputs.drop m) (i : Nat) : t.inputAt i = s.inputAt (m + i) := by
  simp [State.inputAt, h]

theorem QuietFor.drop {m n : Nat} (hs : QuietFor (m + n) s) (h : t.inputs = s.inputs.drop m) : QuietFor n t :=
  fun i hi => inputAt_drop h i ▸ hs (m + i) (by omega)

theorem AcceptsFor.drop {m n : Nat} (hs : AcceptsFor (m + n) s) (h : t.inputs = s.inputs.drop m) : AcceptsFor n t :=
  fun i hi => inputAt_drop h i ▸ hs (m + i) (by omega)

/-- A run, in two parts. -/
theorem run_add : ∀ {m : Nat} (n : Nat) {s t : State},
    core.run m s = .next t → core.run (m + n) s = core.run n t
  | 0, n, s, t, h => by cases h; rw [Nat.zero_add]
  | m + 1, n, s, t, h => by
    cases hs : step s with
    | next u =>
      rw [run_succ m hs] at h
      rw [Nat.add_right_comm, run_succ _ hs, run_add n h]
    | fault r | refused r =>
      have hstep : core.step s = _ := hs
      simp [Host.Core.run, hstep] at h

/-- Rule R184: `n` cycles of `DELAY` are `n` ticks. -/
theorem run_ticks (hwf : s.cfg.wf = true) (hp : s.phase = .delay) (n : Nat) (hn : n ≤ s.delayCnt)
    (hrst : ∀ i, i < n → (s.inputAt i).rst = false) :
    core.run n s = .next { s.elapse n with delayCnt := s.delayCnt - n } := by
  induction n with
  | zero => rw [elapse_zero]; rfl
  | succ n ih =>
    have hrun := ih (by omega) fun i hi => hrst i (by omega)
    have hstep := step_tick (s := { s.elapse n with delayCnt := s.delayCnt - n }) hwf
      ((congrArg CycleInput.rst (elapse_cycleInput s _)).trans (hrst n (by omega))) hp (Nat.sub_pos_of_lt hn)
    refine (run_snoc n _ _ _ hrun hstep).trans ?_
    rw [← elapse_beginCycle]
    rfl

/-- Rules R184, R185: the whole delay, and the cycle after its last tick. -/
theorem run_delay (hwf : s.cfg.wf = true) (hp : s.phase = .delay)
    (hrst : ∀ i, i < s.delayCnt + 1 → (s.inputAt i).rst = false) :
    core.run (s.delayCnt + 1) s = .next { (s.elapse (s.delayCnt + 1)).startTx with delayCnt := 0 } := by
  have hticks := run_ticks hwf hp s.delayCnt (Nat.le_refl _) fun i hi => hrst i (by omega)
  rw [Nat.sub_self] at hticks
  have hstep := step_delayDone (s := { s.elapse s.delayCnt with delayCnt := 0 }) hwf
    ((congrArg CycleInput.rst (elapse_cycleInput s _)).trans (hrst _ (Nat.lt_succ_self _))) hp rfl
  refine (run_snoc _ _ _ _ hticks hstep).trans ?_
  rw [← elapse_beginCycle]
  rfl

/-- `s` after `n` cycles in each of which a byte of `frame` is sent, from its first byte on (rule R135). -/
def State.sending (s : State) (frame : List Byte) (n : Nat) : State :=
  { s.elapse n with
    txLog := s.txLog ++ frame.take n
    txIdx := BitVec.ofNat 17 n
    phase := if n < frame.length then .tx else .rxLen0 }

theorem sending_zero {frame : List Byte} (hp : s.phase = .tx) (hidx : s.txIdx = 0) (hpos : 0 < frame.length) :
    s.sending frame 0 = s := by
  cases s
  cases hp
  cases hidx
  simp [State.sending, State.elapse, hpos]

theorem sending_txIdx {frame : List Byte} {n : Nat} (hn : n ≤ 65536) : (s.sending frame n).txIdx.toNat = n := by
  simp only [State.sending, BitVec.toNat_ofNat]
  omega

/-- One byte more: what `step_txByte` makes of `n` bytes sent. -/
theorem sending_succ {frame : List Byte} {n : Nat} (hn : n < frame.length) :
    { (s.sending frame n).beginCycle with
      txLog := (s.sending frame n).txLog ++ [frame[n]]
      txIdx := (s.sending frame n).txIdx + 1
      phase := if n + 1 = frame.length then .rxLen0 else .tx } = s.sending frame (n + 1) := by
  have hphase : (n + 1 < frame.length) ↔ ¬ n + 1 = frame.length := by omega
  have hindex : BitVec.ofNat 17 n + 1 = BitVec.ofNat 17 (n + 1) := (BitVec.ofNat_add n 1).symm
  simp only [State.sending, ← elapse_beginCycle, hphase, ite_not, ← hindex, List.append_assoc, List.take_append_getElem hn]
  rfl

/-- Rule R135 for a whole frame: under a transport that accepts, `n` cycles of `TX` send the first `n` bytes. -/
theorem run_sends {frame : List Byte} (hwf : s.cfg.wf = true) (hp : s.phase = .tx) (hidx : s.txIdx = 0)
    (hf : txFrame s.cfg s.txTarget = .ok frame) (hpos : 0 < frame.length) (hlen : frame.length ≤ 65536) (n : Nat)
    (hn : n ≤ frame.length) (hquiet : QuietFor n s) (haccepts : AcceptsFor n s) :
    core.run n s = .next (s.sending frame n) := by
  induction n with
  | zero =>
    rw [sending_zero hp hidx hpos]
    rfl
  | succ n ih =>
    have hrun := ih (by omega) (fun i hi => hquiet i (by omega)) fun i hi => haccepts i (by omega)
    have hin : (s.sending frame n).cycleInput = s.inputAt n := cycleInput_drop rfl
    have hcount : (s.sending frame n).txIdx.toNat = n := sending_txIdx (by omega)
    have hphase : (s.sending frame n).phase = .tx := if_pos hn
    have hstep := step_txByte (s := s.sending frame n) hwf (by rw [Calm, hin]; exact hquiet n (by omega)) hphase
      (by rw [hin]; exact haccepts n (by omega)) hf (by omega)
    refine (run_snoc n _ _ _ hrun hstep).trans ?_
    simp only [hcount]
    exact congrArg _ (sending_succ hn)

/-- The cycle of a dispatch that translates: the event, and the delay armed (rules R182, R183, R190). -/
theorem Dispatches.exists_translated {rep : Byte} {samples : List Half} {k j : Nat}
    (hs : Dispatches s (1 :: rep :: sampleBytes (samples.map (·.toNat)))) (hk : classify s.cfg samples = some k)
    (hj : s.cfg.trans k = some j) :
    ∃ u, step s = .next u ∧ Unread s 1 u ∧ u.cfg = s.cfg ∧ u.phase = .delay ∧ u.txTarget = j
      ∧ u.delayCnt = s.cfg.delayTicks ∧ u.evLog = s.evLog ++ [.translate k j] ∧ u.txLog = s.txLog ∧ u.fault = s.fault := by
  obtain ⟨hinputs, hheld⟩ := unread_beginCycle s
  exact ⟨_, hs.step_translate hk hj, ⟨hinputs, hheld⟩, rfl, rfl, rfl, rfl, rfl, rfl, rfl⟩

/-- Rule R190: from `DELAY`, the whole delay and then the first `n` bytes of the frame. -/
theorem run_delay_sends {frame : List Byte} {n : Nat} (hwf : s.cfg.wf = true) (hp : s.phase = .delay)
    (hf : txFrame s.cfg s.txTarget = .ok frame) (hpos : 0 < frame.length) (hlen : frame.length ≤ 65536)
    (hn : n ≤ frame.length) (hquiet : QuietFor (s.delayCnt + 1 + n) s) (haccepts : AcceptsFor (s.delayCnt + 1 + n) s) :
    core.run (s.delayCnt + 1 + n) s =
      .next (State.sending { (s.elapse (s.delayCnt + 1)).startTx with delayCnt := 0 } frame n) := by
  have hdelay := run_delay hwf hp fun i hi => (hquiet i (by omega)).1
  refine (run_add n hdelay).trans ?_
  exact run_sends (s := { (s.elapse (s.delayCnt + 1)).startTx with delayCnt := 0 }) hwf rfl rfl hf hpos hlen n hn
    (hquiet.drop rfl) (haccepts.drop rfl)

end Runs

end Sys2Proof.Machine

namespace Sys2Proof

/-- A frame decodes to the instruction of its type's row and its payload, whatever follows it (rules R80, R130). -/
theorem decodeFrame_of_encodeFrame {type : Byte} {payload frame : List Byte} {row : Row}
    (h : encodeFrame type payload = .ok frame) (hr : rowOf type = some row) (rest : List Byte) :
    decodeFrame (frame ++ rest) = .ok (row.instr type payload, rest) := by
  obtain ⟨hlen, rfl⟩ := encodeFrame_inv h
  have hl : (le16 (lo8 (1 + payload.length)) (hi8 (1 + payload.length))).toNat = payload.length + 1 := by
    rw [le16_lo8_hi8 (by simp only [maxPayload] at hlen; omega), Nat.add_comm]
  simp [decodeFrame, hl, decodeBody_cons type payload hlen hr]

end Sys2Proof

namespace Sys2Proof.Proofs

open Sys2Proof Sys2Proof.Machine

/-- Settles O40, by `run_ticks`: the whole state after `n` ticks. -/
theorem ticksCountTheDelayDown : Obligations.TicksCountTheDelayDown :=
  fun _ n hwf hp hn hrst => ⟨_, run_ticks hwf hp n hn hrst, hp, rfl, rfl, rfl, rfl, rfl, rfl⟩

/-- Settles O42: the dispatch leaves a state `u` in which the delay is armed; from there the delay runs down, and then the frame is
sent. -/
theorem translatedFrameIsAnsweredInOrder : Obligations.TranslatedFrameIsAnsweredInOrder := by
  intro s rep samples k j frame hs hk hj hf hquiet haccepts m hm
  obtain ⟨frame', hf', hpos, hlen⟩ := txFrame_of_target hs.cfgWf ⟨k, hj⟩
  obtain rfl : frame = frame' := Except.ok.inj (hf.symm.trans hf')
  obtain ⟨u, hstep, hunread, hcfg, hp, htarget, hticks, hlog, hsent, hfault⟩ := hs.exists_translated hk hj
  have hwf : u.cfg.wf = true := hcfg ▸ hs.cfgWf
  rcases m with _ | n
  · exact ⟨s, rfl, by simp, rfl, by omega, by simp, by omega⟩
  rw [run_succ n hstep, Nat.add_comm n 1]
  have hquiet_u : QuietFor n u := QuietFor.drop (m := 1) (fun i hi => hquiet i (by omega)) hunread.inputs
  have haccepts_u : AcceptsFor n u := AcceptsFor.drop (m := 1) (fun i hi => haccepts i (by omega)) hunread.inputs
  by_cases hn : n ≤ s.cfg.delayTicks
  · have hnone : 1 + n - (s.cfg.delayTicks + 2) = 0 := by omega
    refine ⟨_, run_ticks hwf hp n (hticks ▸ hn) fun i hi => (hquiet_u i hi).1, (hunread.trans ⟨rfl, rfl⟩).rxHeld, hfault,
      fun _ => hlog, ?_, by omega⟩
    rw [hnone, List.take_zero, List.append_nil]
    exact hsent
  · obtain ⟨i, rfl⟩ : ∃ i, n = u.delayCnt + 1 + i := ⟨n - (s.cfg.delayTicks + 1), by omega⟩
    have hcount : 1 + (u.delayCnt + 1 + i) - (s.cfg.delayTicks + 2) = i := by omega
    refine ⟨_, run_delay_sends hwf hp (by rwa [hcfg, htarget]) (by omega) hlen (by omega) hquiet_u haccepts_u,
      (hunread.trans ((unread_elapse u _).trans ⟨rfl, rfl⟩)).rxHeld, hfault, fun _ => hlog, ?_, fun hlast => ?_⟩
    · rw [hcount, ← hsent]
      rfl
    · obtain rfl : i = frame.length := by omega
      exact ⟨if_neg (Nat.lt_irrefl _), htarget, sending_txIdx (by omega), rfl⟩

/-- Settles O50: a reset aside, of all steps only a dispatch touches the log and the port, and it emits one event at most. -/
theorem oneEventAtMostPerStep : Obligations.OneEventAtMostPerStep := by
  intro s t h hrst
  obtain ⟨-, ⟨hr, -⟩ | ⟨-, -, rfl⟩ | ⟨a, -, hc, ha⟩⟩ := step_next h
  · simp [hrst] at hr
  · exact ⟨[], by simp⟩
  · rcases perform_events ha with ⟨hlog, hport, -⟩ | ⟨rfl, -, -, -, -, e, hlog, hport⟩
    · exact ⟨[], by simp [hlog, hport]⟩
    · exact ⟨[e], by simpa using hlog, Nat.le_refl _, hport, fun _ => chooseStep_dispatch (s := s.beginCycle).1 hc⟩

/-- Settles O51: only the step that receives a byte takes one, and it takes the oldest. -/
theorem bytesAreAcceptedOnceInOrder : Obligations.BytesAreAcceptedOnceInOrder := by
  intro s t h
  obtain ⟨-, ⟨-, rfl⟩ | ⟨-, -, rfl⟩ | ⟨a, hrst, hc, ha⟩⟩ := step_next h
  · exact .inl rfl
  · exact .inl rfl
  · have hheld := perform_rxHeld ha
    cases a with
    | rxByte b =>
      obtain ⟨hp, hfail, rest, hoffered⟩ := chooseStep_rxByte hc
      refine .inr ⟨rxReady_iff.2 hp, hrst, hfail, b, ?_⟩
      rw [hheld, consume_rxByte_rxHeld, hoffered, List.tail_cons]
    | rxTimeout | fail | tick | txByte | dispatch | delayDone => exact .inl hheld

/-- Settles O52: what the block sends is a frame of type 2. -/
theorem loopedBackFrameIsANoOp : Obligations.LoopedBackFrameIsANoOp := by
  intro c j frame h
  obtain ⟨payload, hencode⟩ := txFrame_inv h
  have hdecode := decodeFrame_of_encodeFrame (row := .sendRequest) hencode rfl []
  exact ⟨payload, by rwa [List.append_nil] at hdecode, fun _ => rfl⟩

/-- Settles O19: the cycle is a stall, and the offered byte depends on nothing that a stall changes. -/
theorem stalledTransmitHoldsTheByte : Obligations.StalledTransmitHoldsTheByte :=
  fun s hwf hcalm hp hready => ⟨step_txStall hwf hcalm hp hready, by simp [State.txValid, hp], rfl⟩

/-- Settles O21: the cycle selects the dispatch, and the fetch does not see that the cycle has begun. -/
theorem dispatchRunsTheDecodedInstruction : Obligations.DispatchRunsTheDecodedInstruction := by
  intro s bytes i hwf hrst hbusy hp hpacket hdecode
  have hfetch : fetch s.beginCycle = .ok i := fetch_of_packet ((packet_beginCycle s).trans hpacket) hdecode
  exact (step_act hwf hrst (chooseStep_dispatch.2 ⟨hp, hbusy⟩)).trans (dispatchStep_of_fetch (s := s.beginCycle) hp hfetch)

end Sys2Proof.Proofs

/-! PROOFS. The encoding (rules R80 to R87, R96, R130): which row of the type map a byte has, when an instruction fits a frame, and that
an instruction is its row, its type byte and its payload. -/

namespace Sys2Proof

/-- Rule R96: no two patterns of the type map cover the same byte, and each byte is covered. -/
theorem typePatterns_cover_once (type : Byte) : (typePatterns.filter (·.covers type)).length = 1 := by
  revert type; decide

/-- Rule R82: the rows of the types 0 to 3, and for the others the row of the highest set bit. -/
theorem rowOf_eq (type : Byte) :
    rowOf type = some
      (if type.toNat = 0 then .message else if type.toNat = 1 then .received else if type.toNat = 2 then .sendRequest
        else if type.toNat = 3 then .sendResponse else if type.toNat < 8 then .unknown04
        else if type.toNat < 16 then .unknown08 else if type.toNat < 32 then .unknown10
        else if type.toNat < 64 then .unknown20 else if type.toNat < 128 then .unknown40 else .unknown80) := by
  revert type; decide

/-- Rule R96: the decoder reads the type byte of an instruction as the instruction's own row. -/
theorem Instr.rowOf_typeByte (i : Instr) : rowOf i.typeByte = some i.row := by
  cases i with
  | message form => exact Laws.TypeRow.message form
  | received form => exact Laws.TypeRow.received form
  | sendRequest payload => exact Laws.TypeRow.sendRequest payload
  | sendResponse payload => exact Laws.TypeRow.sendResponse payload
  | unknown80 low payload => exact Laws.TypeRow.unknown80 low payload
  | unknown40 low payload => exact Laws.TypeRow.unknown40 low payload
  | unknown20 low payload => exact Laws.TypeRow.unknown20 low payload
  | unknown10 low payload => exact Laws.TypeRow.unknown10 low payload
  | unknown08 low payload => exact Laws.TypeRow.unknown08 low payload
  | unknown04 low payload => exact Laws.TypeRow.unknown04 low payload

/-- The row, the type byte and the payload determine the instruction (rule R84): the unknown rows keep the low bits of the type, and the
two structured formats give their payload back. -/
theorem Instr.row_instr (i : Instr) : i.row.instr i.typeByte i.payload = i := by
  cases i with
  | message form => exact congrArg Instr.message (messageForm_of_payload form)
  | received form => exact congrArg Instr.received (receivedForm_of_payload form)
  | sendRequest | sendResponse => rfl
  | unknown80 low payload => exact congrArg (Instr.unknown80 · payload) BitVec.setWidth_append_eq_right
  | unknown40 low payload => exact congrArg (Instr.unknown40 · payload) BitVec.setWidth_append_eq_right
  | unknown20 low payload => exact congrArg (Instr.unknown20 · payload) BitVec.setWidth_append_eq_right
  | unknown10 low payload => exact congrArg (Instr.unknown10 · payload) BitVec.setWidth_append_eq_right
  | unknown08 low payload => exact congrArg (Instr.unknown08 · payload) BitVec.setWidth_append_eq_right
  | unknown04 low payload => exact congrArg (Instr.unknown04 · payload) BitVec.setWidth_append_eq_right

/-- The payload formats drop no byte (rules R84, R90). -/
@[simp] theorem Row.payload_instr (row : Row) (type : Byte) (payload : List Byte) :
    (row.instr type payload).payload = payload := by
  cases row with
  | message => exact messageForm_payload payload
  | received => exact receivedForm_payload payload
  | sendRequest | sendResponse | unknown80 | unknown40 | unknown20 | unknown10 | unknown08 | unknown04 => rfl

theorem MessageForm.wf_iff (form : MessageForm) : form.wf = true ↔ form.payload.length ≤ maxPayload := by
  match form with
  | .full _ _ extra =>
    simp only [MessageForm.wf, MessageForm.payload, decide_eq_true_iff, List.length_cons]
    omega
  | .short none | .short (some _) => simp [MessageForm.wf, MessageForm.payload, maxPayload]

theorem ReceivedForm.wf_iff (form : ReceivedForm) : form.wf = true ↔ form.payload.length ≤ maxPayload := by
  match form with
  | .empty => simp [ReceivedForm.wf, ReceivedForm.payload]
  | .whole _ samples => simp [ReceivedForm.wf, ReceivedForm.payload, Nat.add_comm 1]
  | .odd _ samples _ =>
    simp only [ReceivedForm.wf, ReceivedForm.payload, decide_eq_true_iff, List.length_cons, List.length_append, List.length_map,
      List.length_nil, sampleBytes_length]
    omega

/-- Rule R87: an instruction is one that a frame carries exactly when its payload fits. -/
theorem Instr.wf_iff (i : Instr) : i.wf = true ↔ i.payload.length ≤ maxPayload := by
  cases i with
  | message form => exact form.wf_iff
  | received form => exact form.wf_iff
  | sendRequest | sendResponse | unknown80 | unknown40 | unknown20 | unknown10 | unknown08 | unknown04 =>
    exact decide_eq_true_iff

theorem decodeBody_encodeBody {i : Instr} (h : i.payload.length ≤ maxPayload) : decodeBody (encodeBody i) = .ok i :=
  (decodeBody_cons i.typeByte i.payload h i.rowOf_typeByte).trans (congrArg Except.ok i.row_instr)

theorem encodeBody_instr {type : Byte} {row : Row} (hr : rowOf type = some row) (payload : List Byte) :
    encodeBody (row.instr type payload) = type :: payload := by
  rw [encodeBody, Sys2Proof.rowOf_typeByte type row payload hr, Row.payload_instr]

end Sys2Proof

namespace Sys2Proof.Proofs

open Sys2Proof Sys2Proof.Machine

/-- Settles O54: the decoder takes the instruction's own row, and the row gives the instruction back. -/
theorem decodeOfEncodeIsTheInstruction : Obligations.DecodeOfEncodeIsTheInstruction := by
  intro i hwf
  have hlen : i.payload.length ≤ maxPayload := i.wf_iff.1 hwf
  have hencode := encodeFrame_ok i.typeByte i.payload hlen
  refine ⟨decodeBody_encodeBody hlen, _, hencode, rfl, fun rest => ?_⟩
  rw [decodeFrame_of_encodeFrame hencode i.rowOf_typeByte rest, i.row_instr]

/-- Settles O55: every type byte has a row, and no row drops a bit of the type byte or a byte of the payload. -/
theorem everyBodyDecodesAndEncodesBack : Obligations.EveryBodyDecodesAndEncodesBack := by
  intro bytes hpos hmax
  cases bytes with
  | nil => exact absurd hpos (by decide)
  | cons type payload =>
    have hlen : payload.length ≤ maxPayload := Nat.le_of_succ_le_succ hmax
    obtain ⟨row, hr⟩ := Option.isSome_iff_exists.1 (rowOf_isSome type)
    refine ⟨_, decodeBody_cons type payload hlen hr, encodeBody_instr hr payload, (Instr.wf_iff _).2 ?_⟩
    rwa [Row.payload_instr]

/-- Settles O53: a check of the type map over the 256 type bytes. -/
theorem typeMapIsDisjointAndTotal : Obligations.TypeMapIsDisjointAndTotal :=
  fun type => ⟨typePatterns_cover_once type, rowOf_eq type⟩

end Sys2Proof.Proofs

/-! PROOFS. The receive half of the Framer, one clock cycle at a time (rules R110 to R116): what a cycle that accepts a byte and one that
reports a short read answer, and what the buffer holds of the frame being received. -/

namespace Sys2Proof.Machine

/-- The body bytes `got` of a frame have been accepted since the buffer held `m`: they are counted, and those below `BODY_MAX` are
stored at their indices (rules R114, R116). -/
structure Accepted (m : Memory) (got : List Byte) (s : State) : Prop where
  count : s.rxCnt.toNat = got.length
  read : ∀ i, s.body.read i = if i < s.cfg.bodyMax then got[i]?.or (m.read i) else m.read i

section ReceiveCycles

variable {s t : State} {b : Byte} {rest : List Byte}

/-- A cycle of an RX phase in which the transport offers a byte: the byte leaves the transport and is received (rules R51, R52). -/
theorem step_rxByte (hwf : s.cfg.wf = true) (hcalm : Calm s) (hp : Receiving s) (ho : Offers s b rest) :
    step s = .next (rxByte b { s.beginCycle with rxHeld := rest }) := by
  rw [step_act hwf hcalm.1 (chooseStep_byte hp hcalm.2 ho), consume_offered ho]
  rfl

/-- A cycle of an RX phase with no byte on offer and a short-read indication (rules R51, R53). -/
theorem step_rxTimeout (hwf : s.cfg.wf = true) (hcalm : Calm s) (hp : Receiving s) (hn : OffersNone s)
    (ht : s.cycleInput.rxTimeout = true) (h : Transition .rxTimeout s.beginCycle t) : step s = .next t :=
  step_of_transition hwf hcalm.1 (chooseStep_timeout hp hcalm.2 hn ht) h

/-- The three rows of `RxByte(b)` in `RX_BODY` in one equation (rules R114, R116). -/
theorem rxByte_body (b : Byte) (hp : s.phase = .rxBody) :
    rxByte b s = (s.storeBody b).setPhase
      (if s.rxCnt.toNat + 1 = s.rxLen.toNat then (if s.rxLen.toNat ≤ s.cfg.bodyMax then .dispatch else .rxLen0)
        else .rxBody) := by
  by_cases hlast : s.rxCnt.toNat + 1 = s.rxLen.toNat
  · rw [if_pos hlast, rxByte_body_last b hp hlast]
  · rw [if_neg hlast, rxByte_body_more b hp hlast, ← hp]
    rfl

/-- Bytes that the buffer holds below `rx_cnt` have been accepted. -/
theorem accepted_of_holds {got : List Byte} (hcount : got.length = s.rxCnt.toNat)
    (hread : ∀ i (h : i < got.length), s.body.read i = some got[i]) : Accepted s.body got s where
  count := hcount.symm
  read i := by
    by_cases hi : i < got.length
    · simp [hi, hread i hi]
    · simp [List.getElem?_eq_none (Nat.le_of_not_lt hi)]

/-- One body byte more (rule R114). -/
theorem Accepted.storeBody {m : Memory} {got : List Byte} (h : Accepted m got s) (b : Byte)
    (hlt : s.rxCnt.toNat < s.rxLen.toNat) : Accepted m (got ++ [b]) (s.storeBody b) where
  count := by rw [storeBody_rxCnt, rxCnt_succ hlt, h.count, List.length_append, List.length_singleton]
  read i := by
    rw [storeBody_read, h.read, h.count, storeBody_cfg]
    rcases Nat.lt_trichotomy i got.length with hi | rfl | hi
    · rw [if_neg (by omega), List.getElem?_append_left hi]
    · simp
    · rw [if_neg (by omega), List.getElem?_eq_none hi.le, List.getElem?_eq_none (by simpa using hi)]

/-- When all the declared bytes have been accepted and the buffer has room for them, it holds them (rule R34(c)). -/
theorem Accepted.bodyHolds {m : Memory} {got : List Byte} (h : Accepted m got s) (hlen : s.rxLen.toNat = got.length)
    (hfit : got.length ≤ s.cfg.bodyMax) : BodyHolds s got where
  length := hlen
  fits := hfit
  holds i hi := by rw [h.read, if_pos (by omega), List.getElem?_eq_getElem hi, Option.some_or]

end ReceiveCycles

end Sys2Proof.Machine

namespace Sys2Proof.Proofs

open Sys2Proof Sys2Proof.Machine

/-- Settles O5. -/
theorem lowLengthByteIsTaken : Obligations.LowLengthByteIsTaken :=
  fun _ b _ hwf hcalm hp ho => (step_rxByte hwf hcalm (.inl hp) ho).trans (congrArg _ (rxByte_len0 b hp))

/-- Settles O6. -/
theorem idleTimeoutChangesNothing : Obligations.IdleTimeoutChangesNothing := by
  intro s hp
  refine ⟨perform_of_transition (.len0Timeout hp), by simp [ghostLabel, hp], fun hwf hcalm hn ht => ?_⟩
  exact step_rxTimeout hwf hcalm (.inl hp) hn ht (.len0Timeout (s := s.beginCycle) hp)

/-- Settles O7: the length is `le16` of the two bytes, and either of the two rows of `RX_LEN1` applies. -/
theorem highLengthByteStartsTheBody : Obligations.HighLengthByteStartsTheBody := by
  intro s b rest hwf hcalm hp ho
  have hstep := step_rxByte hwf hcalm (.inr (.inl hp)) ho
  refine ⟨le16 s.lenLo b, le16_toNat _ _, fun hl => hstep.trans ?_, fun hl => ⟨hstep.trans ?_, ?_⟩⟩
  · exact congrArg _ (rxByte_len1 (s := { s.beginCycle with rxHeld := rest }) b hp hl)
  · exact congrArg _ (rxByte_len1_zero (s := { s.beginCycle with rxHeld := rest }) b hp hl)
  · have hzero : le16 s.lenLo b = 0 := BitVec.eq_of_toNat_eq hl
    simp [ghostLabel, hp, hzero]

/-- Settles O8. -/
theorem partialLengthIsDropped : Obligations.PartialLengthIsDropped := by
  intro s hwf hcalm hp hn ht
  exact ⟨step_rxTimeout hwf hcalm (.inr (.inl hp)) hn ht (.len1Timeout (s := s.beginCycle) hp), by simp [ghostLabel, hp]⟩

/-- Settles O11. -/
theorem shortFrameIsDroppedSilently : Obligations.ShortFrameIsDroppedSilently := by
  intro s hwf hcalm hp hn ht
  exact ⟨step_rxTimeout hwf hcalm (.inr (.inr hp)) hn ht (.bodyTimeout (s := s.beginCycle) hp), by simp [ghostLabel, hp]⟩

/-- Settles O9: the cycle is `rxByte_body`, and after the last byte the buffer holds the bytes accepted. -/
theorem bodyByteIsStoredAndCounted : Obligations.BodyByteIsStoredAndCounted := by
  intro s b rest hwf hcalm hp hlt ho
  have hstep := (step_rxByte hwf hcalm (.inr (.inr hp)) ho).trans
    (congrArg _ (rxByte_body (s := { s.beginCycle with rxHeld := rest }) b hp))
  refine ⟨hstep, rxCnt_succ hlt, fun got hcount hread hlast hfit => ⟨_, hstep, BodyHolds.packet ?_⟩⟩
  have haccepted := (accepted_of_holds hcount hread).storeBody b hlt
  have hlen : (got ++ [b]).length = s.rxLen.toNat := by simp [hcount, hlast]
  exact (haccepted.bodyHolds hlen.symm (hlen ▸ hfit)).congr rfl rfl rfl

end Sys2Proof.Proofs

/-! PROOFS. The receive half of the Framer, frame by frame (rules R116, R117, R120): bytes received one after the other, a body in part and
whole, the pieces that are skipped, and an encoded frame, as steps and as clock cycles. -/

namespace Sys2Proof.Machine

/-- `s` after the steps `RxByte` of some bytes. -/
def receive (bytes : List Byte) (s : State) : State := bytes.foldl (fun t b => rxByte b t) s

/-- `s` with other bytes in the transport, other inputs to come and another event port. -/
def State.inEnv (s : State) (held : List Byte) (inputs : List CycleInput) (port : Option Event) : State :=
  { s with rxHeld := held, inputs := inputs, evPort := port }

/-- Between `s` and `t` no event is emitted, no byte sent and no failure taken. -/
structure Silent (s t : State) : Prop where
  cfg : t.cfg = s.cfg
  evLog : t.evLog = s.evLog
  txLog : t.txLog = s.txLog
  fault : t.fault = s.fault

section Silence

variable {s t u : State}

theorem Silent.trans (h : Silent s t) (h' : Silent t u) : Silent s u where
  cfg := h'.cfg.trans h.cfg
  evLog := h'.evLog.trans h.evLog
  txLog := h'.txLog.trans h.txLog
  fault := h'.fault.trans h.fault

theorem silent_rxByte (b : Byte) : Silent s (rxByte b s) := by
  cases hp : s.phase with
  | rxLen0 => rw [rxByte_len0 b hp]; exact ⟨rfl, rfl, rfl, rfl⟩
  | rxLen1 => simp only [rxByte, hp]; exact ⟨rfl, rfl, rfl, rfl⟩
  | rxBody => rw [rxByte_body b hp]; exact ⟨rfl, rfl, rfl, rfl⟩
  | dispatch | delay | tx | halt => simp only [rxByte, hp]; exact ⟨rfl, rfl, rfl, rfl⟩

theorem silent_receive (bytes : List Byte) : Silent s (receive bytes s) := by
  induction bytes generalizing s with
  | nil => exact ⟨rfl, rfl, rfl, rfl⟩
  | cons b rest ih => exact (silent_rxByte b).trans ih

end Silence

section Frames

variable {s : State}

@[simp] theorem receive_nil (s : State) : receive [] s = s := rfl

@[simp] theorem receive_cons (b : Byte) (rest : List Byte) (s : State) : receive (b :: rest) s = receive rest (rxByte b s) := rfl

theorem receive_snoc (bytes : List Byte) (b : Byte) (s : State) : receive (bytes ++ [b]) s = rxByte b (receive bytes s) := by
  simp [receive]

theorem runActions_deliver (bytes : List Byte) (s : State) : runActions (deliver bytes) s = .next (receive bytes s) := by
  induction bytes generalizing s with
  | nil => rfl
  | cons b rest ih => exact ih (rxByte b s)

/-- Bytes and then a short read (rules R111, R113, R115). -/
theorem runActions_deliver_timeout {bytes : List Byte} (hp : Receiving (receive bytes s)) :
    runActions (deliver bytes ++ [.rxTimeout]) s = .next { receive bytes s with phase := .rxLen0 } :=
  (runActions_next (runActions_deliver bytes s)).trans (congrArg _ (rxTimeout_receiving hp))

/-- The transport, the inputs to come and the event port play no part in what bytes received do. -/
theorem receive_inEnv (bytes : List Byte) (s : State) (held : List Byte) (inputs : List CycleInput) (port : Option Event) :
    receive bytes (s.inEnv held inputs port) = (receive bytes s).inEnv held inputs port := by
  induction bytes generalizing s with
  | nil => rfl
  | cons b rest ih => rw [receive_cons, State.inEnv, rxByte_env, receive_cons, ← ih, State.inEnv]

/-- `step_rxByte`, with the byte received before the cycle's input is taken. -/
theorem step_receives {b : Byte} {rest : List Byte} (hwf : s.cfg.wf = true) (hcalm : Calm s) (hp : Receiving s)
    (ho : Offers s b rest) : step s = .next ((rxByte b s).inEnv rest s.inputs.tail none) :=
  (step_rxByte hwf hcalm hp ho).trans (congrArg _ (rxByte_env b s rest s.inputs.tail none))

theorem BodyHolds.inEnv {bytes : List Byte} (h : BodyHolds s bytes) (held : List Byte) (inputs : List CycleInput)
    (port : Option Event) : BodyHolds (s.inEnv held inputs port) bytes :=
  h.congr rfl rfl rfl

/-- A frame cut inside its body (rules R110, R112, R114). -/
theorem receive_part {lo hi : Byte} {got : List Byte} (hp : s.phase = .rxLen0) (hlt : got.length < (le16 lo hi).toNat) :
    (receive (lo :: hi :: got) s).phase = .rxBody ∧ (receive (lo :: hi :: got) s).rxLen = le16 lo hi
      ∧ Accepted s.body got (receive (lo :: hi :: got) s) := by
  have hdeliver := deliver_len s lo hi (deliver got) hp (by omega)
  obtain ⟨t, hrun, hphase, hcount, hlen, hcfg, -, -, -, hread⟩ :=
    deliver_body got { s with lenLo := lo, rxLen := le16 lo hi, rxCnt := 0, phase := .rxBody } rfl (by simpa using hlt)
  obtain rfl : t = receive (lo :: hi :: got) s :=
    Host.Outcome.next.inj (hrun.symm.trans (hdeliver.symm.trans (runActions_deliver (lo :: hi :: got) s)))
  refine ⟨hphase, hlen, by simpa using hcount, fun i => ?_⟩
  rw [hread, hcfg]
  by_cases hfit : i < s.cfg.bodyMax <;> by_cases hi : i < got.length <;> simp [hfit, hi]

/-- A frame received to its last byte is complete, or dropped when it is longer than the buffer (rules R114, R116). -/
theorem receive_whole {lo hi : Byte} {got : List Byte} (hp : s.phase = .rxLen0) (hlen : got.length = (le16 lo hi).toNat)
    (hpos : got ≠ []) :
    (receive (lo :: hi :: got) s).phase = (if got.length ≤ s.cfg.bodyMax then .dispatch else .rxLen0)
      ∧ (receive (lo :: hi :: got) s).rxLen = le16 lo hi ∧ Accepted s.body got (receive (lo :: hi :: got) s) := by
  obtain rfl | ⟨init, b, rfl⟩ := got.eq_nil_or_concat
  · exact absurd rfl hpos
  · rw [List.concat_eq_append] at hlen ⊢
    have hlt : init.length < (le16 lo hi).toNat := by rw [← hlen, List.length_append]; exact Nat.lt_succ_self _
    obtain ⟨hphase, hdeclared, haccepted⟩ := receive_part hp hlt
    have hcfg := (silent_receive (s := s) (lo :: hi :: init)).cfg
    have hcount := haccepted.count
    rw [show lo :: hi :: (init ++ [b]) = (lo :: hi :: init) ++ [b] from rfl, receive_snoc]
    generalize receive (lo :: hi :: init) s = t at *
    have hlast : t.rxCnt.toNat + 1 = t.rxLen.toNat := by rw [hcount, hdeclared, ← hlen, List.length_append]; rfl
    rw [rxByte_body_last b hphase hlast, hcfg, hdeclared, ← hlen]
    exact ⟨rfl, hdeclared, { haccepted.storeBody b (by omega) with }⟩

/-- Each piece of input that `readPacket` skips leaves the block in `RX_LEN0` (rules R111 to R113, R115 to R117). -/
theorem Skipped.runActions_actions {p : Skipped} (hp : s.phase = .rxLen0) (hfits : p.fits s.cfg.bodyMax) :
    ∃ t, runActions p.actions s = .next t ∧ t.phase = .rxLen0 ∧ Silent s t := by
  have hcut : ∀ bytes, Receiving (receive bytes s) →
      ∃ t, runActions (deliver bytes ++ [.rxTimeout]) s = .next t ∧ t.phase = .rxLen0 ∧ Silent s t :=
    fun bytes hr => ⟨_, runActions_deliver_timeout hr, rfl, { silent_receive bytes with }⟩
  cases p with
  | idle => exact hcut [] (.inl hp)
  | partialLength lo => exact hcut [lo] (.inr (.inl (by simp [rxByte_len0 lo hp])))
  | zeroLength =>
    have hphase : (receive [0, 0] s).phase = .rxLen0 := by
      rw [receive_cons, rxByte_len0 0 hp, receive_cons, rxByte_len1_zero 0 rfl rfl, receive_nil]
    exact ⟨_, runActions_deliver _ s, hphase, silent_receive _⟩
  | cut lo hi got => exact hcut (lo :: hi :: got) (.inr (.inr (receive_part hp hfits).1))
  | oversize lo hi got =>
    obtain ⟨hlen, hover⟩ := hfits
    obtain ⟨hphase, -⟩ := receive_whole hp hlen (List.ne_nil_of_length_pos (by omega))
    exact ⟨_, runActions_deliver _ s, hphase.trans (if_neg (by omega)), silent_receive _⟩

/-- Rule R117 for any number of skipped pieces. -/
theorem runActions_skipped {skipped : List Skipped} (hp : s.phase = .rxLen0) (hfits : ∀ p ∈ skipped, p.fits s.cfg.bodyMax) :
    ∃ t, runActions (skipped.flatMap Skipped.actions) s = .next t ∧ t.phase = .rxLen0 ∧ Silent s t := by
  induction skipped generalizing s with
  | nil => exact ⟨s, rfl, hp, rfl, rfl, rfl, rfl⟩
  | cons p rest ih =>
    obtain ⟨hfit, hrest⟩ := List.forall_mem_cons.1 hfits
    obtain ⟨t, hrun, hphase, hsilent⟩ := p.runActions_actions hp hfit
    obtain ⟨u, hrun', hphase', hsilent'⟩ := ih hphase (hsilent.cfg ▸ hrest)
    exact ⟨u, (runActions_next hrun).trans hrun', hphase', hsilent.trans hsilent'⟩

/-- The two length bytes of an encoded frame declare the type byte and the payload (rules R85, R130). -/
theorem encodeFrame_length {type : Byte} {payload frame : List Byte} (h : encodeFrame type payload = .ok frame) :
    ∃ lo hi, frame = lo :: hi :: type :: payload ∧ (type :: payload).length = (le16 lo hi).toNat := by
  obtain ⟨hlen, rfl⟩ := encodeFrame_inv h
  refine ⟨_, _, rfl, ?_⟩
  rw [le16_lo8_hi8 (by simp only [maxPayload] at hlen; omega), List.length_cons, Nat.add_comm]

/-- Rule R120: a frame whose bytes are received one after the other reaches `DISPATCH` with its packet in the buffer. -/
theorem receive_frame {type : Byte} {payload frame : List Byte} (hp : s.phase = .rxLen0)
    (h : encodeFrame type payload = .ok frame) (hfit : 1 + payload.length ≤ s.cfg.bodyMax) :
    (receive frame s).phase = .dispatch ∧ BodyHolds (receive frame s) (type :: payload) := by
  obtain ⟨lo, hi, rfl, hlen⟩ := encodeFrame_length h
  obtain ⟨hphase, hdeclared, haccepted⟩ := receive_whole hp hlen (List.cons_ne_nil _ _)
  have hroom : (type :: payload).length ≤ s.cfg.bodyMax := by rw [List.length_cons]; omega
  refine ⟨hphase.trans (if_pos hroom), haccepted.bodyHolds (by rw [hdeclared, hlen]) ?_⟩
  rwa [(silent_receive _).cfg]

/-- Before the last byte of a frame the block is in an RX phase. -/
theorem receiving_receive_take {type : Byte} {payload frame : List Byte} (hp : s.phase = .rxLen0)
    (h : encodeFrame type payload = .ok frame) {n : Nat} (hn : n < frame.length) : Receiving (receive (frame.take n) s) := by
  obtain ⟨lo, hi, rfl, hlen⟩ := encodeFrame_length h
  match n with
  | 0 => exact .inl hp
  | 1 => exact .inr (.inl (by simp [rxByte_len0 lo hp]))
  | n + 2 =>
    have hshort : ((type :: payload).take n).length < (le16 lo hi).toNat := by
      rw [← hlen, List.length_take]
      simp only [List.length_cons] at hn ⊢
      omega
    exact .inr (.inr (receive_part hp hshort).1)

/-- Rules R110, R112 and R114 in clock cycles: bytes that the transport holds are received one a cycle while the block is in an RX phase,
whatever arrives behind them. -/
theorem run_receives {bytes rest : List Byte} (hwf : s.cfg.wf = true) (hheld : s.rxHeld = bytes ++ rest)
    (hquiet : QuietFor bytes.length s) (hp : ∀ n, n < bytes.length → Receiving (receive (bytes.take n) s)) :
    ∃ port, core.run bytes.length s =
      .next ((receive bytes s).inEnv (rest ++ s.arrivals bytes.length) (s.inputs.drop bytes.length) port) := by
  induction bytes generalizing s rest with
  | nil =>
    obtain rfl : s.rxHeld = rest := hheld
    exact ⟨s.evPort, by rw [List.length_nil, arrivals_zero, List.append_nil]; rfl⟩
  | cons b more ih =>
    have hcalm : Calm s := by simpa [Calm, inputAt_zero] using hquiet 0 (Nat.succ_pos _)
    have hstep := step_receives hwf hcalm (hp 0 (Nat.succ_pos _)) (b := b)
      (rest := more ++ (rest ++ s.cycleInput.arrive)) (by simp [Offers, hheld])
    obtain ⟨port, hrun⟩ := ih (s := (rxByte b s).inEnv (more ++ (rest ++ s.cycleInput.arrive)) s.inputs.tail none)
      ((rxByte_cfg b).symm ▸ hwf) rfl (QuietFor.drop (m := 1) (by rwa [Nat.add_comm]) (List.drop_one.symm))
      fun n hn => by rw [receive_inEnv]; exact hp (n + 1) (Nat.succ_lt_succ hn)
    refine ⟨port, (run_succ _ hstep).trans (hrun.trans ?_)⟩
    rw [receive_inEnv, List.length_cons, arrivals_succ (t := s.beginCycle) more.length rfl, ← List.append_assoc rest,
      ← List.drop_tail]
    rfl

end Frames

end Sys2Proof.Machine

namespace Sys2Proof.Proofs

open Sys2Proof Sys2Proof.Machine

/-- Settles O10: what `receive_whole` says of a frame that is longer than the buffer. -/
theorem oversizeFrameIsConsumedAndDropped : Obligations.OversizeFrameIsConsumedAndDropped := by
  refine ⟨fun s lo hi got hp hlen hover => ?_, fun s b hp hlast hover => by simp [ghostLabel, hp, hlast, hover]⟩
  obtain ⟨hphase, hdeclared, haccepted⟩ := receive_whole hp hlen (List.ne_nil_of_length_pos (by omega))
  obtain ⟨hcfg, hev, htx, hfault⟩ := silent_receive (s := s) (lo :: hi :: got)
  have hread := haccepted.read
  rw [hcfg] at hread
  refine ⟨_, runActions_deliver _ s, hphase.trans (if_neg (by omega)), by rw [hdeclared, hlen],
    BitVec.eq_of_toNat_eq (by rw [haccepted.count, hdeclared, hlen]), hev, htx, hfault, fun i hi => ?_, fun i hi => ?_⟩
  · rw [hread, if_neg (by omega)]
  · rw [hread, if_pos hi, List.getElem?_eq_getElem (by omega), Option.some_or]

/-- Settles O12: the pieces are skipped, by induction on their number, and from `RX_LEN0` a frame is received whole or in part. -/
theorem skippedInputThenFrameIsRead : Obligations.SkippedInputThenFrameIsRead := by
  intro s skipped hp hfits
  obtain ⟨u, hrun, hphase, hsilent⟩ := runActions_skipped hp hfits
  refine ⟨u, hrun, hphase, hsilent.evLog, hsilent.txLog, hsilent.fault, ?_, fun lo => ?_, fun lo hi got hlt => ?_⟩
  · rintro input type payload hfit ⟨skipped', frame, hfits', hencode, rfl⟩
    obtain ⟨v, hrun', hphase', hsilent'⟩ := runActions_skipped hp hfits'
    obtain ⟨hdispatch, hholds⟩ := receive_frame hphase' hencode (hsilent'.cfg ▸ hfit)
    have hall := hsilent'.trans (silent_receive frame)
    refine ⟨_, (runActions_next hrun').trans (runActions_deliver frame v), hdispatch, hholds.packet, ?_, hall.evLog, hall.txLog,
      hall.fault⟩
    rw [hholds.length, List.length_cons, Nat.add_comm]
  · exact ⟨_, (runActions_next hrun).trans (runActions_deliver [lo] u), by simp [rxByte_len0 lo hphase]⟩
  · exact ⟨_, (runActions_next hrun).trans (runActions_deliver _ u), (receive_part hphase hlt).1,
      (hsilent.trans (silent_receive _)).evLog⟩

/-- Settles O13: `receive_frame`, as steps and in the clock cycles of `run_receives`. -/
theorem encodedFrameIsReceivedWhole : Obligations.EncodedFrameIsReceivedWhole := by
  intro s type payload frame hp hencode hfit
  obtain ⟨hdispatch, hholds⟩ := receive_frame hp hencode hfit
  have hlen : (receive frame s).rxLen.toNat = 1 + payload.length := by rw [hholds.length, List.length_cons, Nat.add_comm]
  have htype : (receive frame s).body.read 0 = some type := hholds.holds 0 (Nat.succ_pos _)
  have hpayload : ∀ i (h : i < payload.length), (receive frame s).body.read (1 + i) = some payload[i] := fun i h => by
    simpa [Nat.add_comm 1 i] using hholds.holds (i + 1) (Nat.succ_lt_succ h)
  refine ⟨⟨_, runActions_deliver frame s, hdispatch, hlen, htype, hpayload⟩, fun rest hwf hheld hquiet => ?_⟩
  obtain ⟨port, hrun⟩ := run_receives hwf hheld hquiet fun n hn => receiving_receive_take hp hencode hn
  obtain ⟨hcfg, hev, htx, hfault⟩ := silent_receive (s := s) frame
  exact ⟨_, hrun, hdispatch, hlen, (hholds.inEnv _ _ _).packet, htype, hpayload, rfl, hev, htx, hfault, hcfg⟩

end Sys2Proof.Proofs

/-! PROOFS. The transmit half of the Framer: the bytes of a frame as numbers (rules R130, R134), one byte of it sent (rule R135), and the
write under an endless schedule (rule R136). -/

namespace Sys2Proof

/-- The sample bytes of 16-bit durations, as numbers (rules R86, R134). -/
theorem sampleBytes_map_toNat {durations : List Nat} (h : ∀ v ∈ durations, v ≤ 65535) :
    (sampleBytes durations).map (·.toNat) = durations.flatMap fun v => [v % 256, v / 256] := by
  induction durations with
  | nil => rfl
  | cons v rest ih =>
    obtain ⟨hv, hrest⟩ := List.forall_mem_cons.1 h
    simp [ih hrest, hi8_toNat hv]

/-- No frame the block can send is longer than a length field allows (rules R87, R130). -/
theorem txFrame_length_le {c : Cfg} {j : Nat} {frame : List Byte} (h : Machine.txFrame c j = .ok frame) :
    frame.length ≤ 65537 := by
  obtain ⟨payload, hencode⟩ := txFrame_inv h
  obtain ⟨hlen, rfl⟩ := encodeFrame_inv hencode
  simp only [maxPayload] at hlen
  simp only [List.length_cons]
  omega

end Sys2Proof

namespace Sys2Proof.Machine

/-- `t` is the state after `n` cycles of a schedule from `s`, in none of which a received byte was accepted, and what `s` had still to
send is what has been sent since and then what `t` has still to send. -/
structure Sending (env : Schedule) (s : State) (n : Nat) (t : State) : Prop where
  run : runUnder env n s = .next t
  inv : Inv t
  rxHeld : t.rxHeld = s.rxHeld ++ arrivalsUnder env n
  progress : ∃ sent, t.txLog = s.txLog ++ sent ∧ s.unsent = sent ++ t.unsent

section Cycles

variable {s t : State}

theorem unsent_delay (hp : s.phase = .delay) : s.unsent = txBytes s.cfg s.txTarget := by simp only [State.unsent, hp]

theorem unsent_tx (hp : s.phase = .tx) : s.unsent = (txBytes s.cfg s.txTarget).drop s.txIdx.toNat := by
  simp only [State.unsent, hp]

theorem unsent_rxLen0 (hp : s.phase = .rxLen0) : s.unsent = [] := by simp only [State.unsent, hp]

/-- Rule R34(e): in `TX` a byte is left. -/
theorem Inv.unsent_pos (hs : Inv s) (hp : s.phase = .tx) : 0 < s.unsent.length := by
  have := hs.sending hp
  rw [unsent_tx hp, List.length_drop]
  omega

theorem Inv.given (hs : Inv s) (c : CycleInput) : Inv (s.given c) := { hs with }

/-- Every step keeps the invariant, for a step that is known. -/
theorem Inv.of_step (hs : Inv s) (h : step s = .next t) : Inv t := by
  obtain ⟨u, hu, hinv⟩ := hs.exists_step
  cases h.symm.trans hu
  exact hinv

/-- A cycle of `TX` in which the transport fails (rules R200, R203). -/
theorem step_txFail (hwf : s.cfg.wf = true) (hrst : s.cycleInput.rst = false) (hp : s.phase = .tx)
    (hfail : s.cycleInput.xportFail = true) : step s = .next { s.beginCycle with fault := true, phase := .halt } :=
  step_of_transition hwf hrst (by simp [chooseStep, hp, hfail]) (.fail (s := s.beginCycle) (.inr (.inr (.inr hp))))

/-- A cycle of `TX` in which the transport accepts: the first byte still to be sent is sent (rule R135). -/
theorem Inv.exists_step_txByte (hs : Inv s) (hcalm : Calm s) (hp : s.phase = .tx) (hready : s.cycleInput.txReady = true) :
    ∃ t b, step s = .next t ∧ t.rxHeld = s.beginCycle.rxHeld ∧ t.txLog = s.txLog ++ [b] ∧ s.unsent = b :: t.unsent
      ∧ (t.phase = .rxLen0 ∨ t.phase = .tx) := by
  obtain ⟨frame, hf, hlt, hlen⟩ := hs.exists_frame hp
  have hstep := step_txByte hs.cfgWf hcalm hp hready hf hlt
  have hunsent : s.unsent = frame[s.txIdx.toNat] :: frame.drop (s.txIdx.toNat + 1) := by
    rw [unsent_tx hp, txBytes_ok hf, List.drop_eq_getElem_cons hlt]
  by_cases hlast : s.txIdx.toNat + 1 = frame.length
  · rw [if_pos hlast] at hstep
    refine ⟨_, _, hstep, rfl, rfl, ?_, .inl rfl⟩
    rw [hunsent, unsent_rxLen0 rfl, hlast, List.drop_length]
  · rw [if_neg hlast] at hstep
    refine ⟨_, _, hstep, rfl, rfl, ?_, .inr rfl⟩
    rw [hunsent, unsent_tx rfl, beginCycle_cfg, beginCycle_txTarget, txBytes_ok hf,
      txIdx_succ (Nat.lt_of_lt_of_le hlt hlen)]

end Cycles

section Write

variable {env : Schedule} {s t u : State} {n : Nat}

theorem sending_refl (env : Schedule) (hs : Inv s) : Sending env s 0 s where
  run := rfl
  inv := hs
  rxHeld := by simp
  progress := ⟨[], by simp⟩

/-- One cycle more, in which `sent` is sent. -/
theorem Sending.next (h : Sending env s n t) (sent : List Byte) (hstep : step (t.given (env n)) = .next u)
    (hheld : u.rxHeld = t.rxHeld ++ (env n).arrive) (hlog : u.txLog = t.txLog ++ sent)
    (hunsent : t.unsent = sent ++ u.unsent) : Sending env s (n + 1) u where
  run := (runUnder_succ h.run).trans hstep
  inv := (h.inv.given _).of_step hstep
  rxHeld := by rw [hheld, h.rxHeld, arrivalsUnder_succ, List.append_assoc]
  progress := by
    obtain ⟨before, hbefore, hrest⟩ := h.progress
    exact ⟨before ++ sent, by rw [hlog, hbefore, List.append_assoc], by rw [hrest, hunsent, List.append_assoc]⟩

/-- The delay ends, whatever the transport does (rules R57, R185). -/
theorem Sending.exists_tx (h : Sending env s n t) (hp : t.phase = .delay) (hrst : NeverReset env) :
    ∃ m u, Sending env s m u ∧ u.phase = .tx := by
  induction hd : t.delayCnt generalizing n t with
  | zero =>
    have hstep := step_delayDone (s := t.given (env n)) h.inv.cfgWf (hrst n) hp hd
    refine ⟨_, _, h.next [] hstep rfl (List.append_nil _).symm ?_, rfl⟩
    rw [unsent_delay hp, unsent_tx rfl]
    rfl
  | succ d ih =>
    have hpos : 0 < t.delayCnt := by omega
    have hstep := step_tick (s := t.given (env n)) h.inv.cfgWf (hrst n) hp hpos
    refine ih (h.next [] hstep rfl (List.append_nil _).symm ?_) hp (by simp [State.given, hd])
    rw [unsent_delay hp, unsent_delay (s := { (t.given (env n)).beginCycle with delayCnt := _ }) hp]
    rfl

/-- Cycles that neither accept nor fail leave `TX` as it is (rules R55, R136). -/
theorem Sending.exists_stalled (h : Sending env s n t) (hp : t.phase = .tx) (hrst : NeverReset env) (d : Nat)
    (hstall : ∀ i, i < d → (env (n + i)).txReady = false ∧ (env (n + i)).xportFail = false) :
    ∃ held inputs port, Sending env s (n + d) (t.inEnv held inputs port) := by
  induction d with
  | zero => exact ⟨_, _, _, h⟩
  | succ d ih =>
    obtain ⟨held, inputs, port, hd⟩ := ih fun i hi => hstall i (by omega)
    obtain ⟨hready, hfail⟩ := hstall d (Nat.lt_succ_self d)
    have hstep := step_txStall (s := (t.inEnv held inputs port).given (env (n + d))) hd.inv.cfgWf ⟨hrst _, hfail⟩ hp hready
    exact ⟨_, _, _, hd.next [] hstep rfl (List.append_nil _).symm rfl⟩

/-- Rule R136 under a fair transport: the write completes, or comes to a cycle in which the transport fails. Between two bytes the
transport stalls until the first cycle in which it accepts or fails. -/
theorem Sending.exists_end (h : Sending env s n t) (hp : t.phase = .tx) (hrst : NeverReset env) (hfair : FairTx env s) :
    ∃ m u, Sending env s m u ∧ (u.phase = .rxLen0 ∨ (u.phase = .tx ∧ (env m).xportFail = true)) := by
  induction hlen : t.unsent.length generalizing n t with
  | zero => exact absurd hlen (Nat.ne_of_gt (h.inv.unsent_pos hp))
  | succ k ih =>
    have hserved : ∃ d, (env (n + d)).txReady = true ∨ (env (n + d)).xportFail = true := by
      obtain ⟨j, hj, hserves⟩ := hfair n t h.run hp
      exact ⟨j - n, by rwa [Nat.add_sub_cancel' hj]⟩
    obtain ⟨held, inputs, port, hstalled⟩ := h.exists_stalled hp hrst (Nat.find hserved)
      fun i hi => by simpa using Nat.find_min hserved hi
    cases hfail : (env (n + Nat.find hserved)).xportFail with
    | true => exact ⟨_, _, hstalled, .inr ⟨hp, hfail⟩⟩
    | false =>
      have hready : (env (n + Nat.find hserved)).txReady = true := by simpa [hfail] using Nat.find_spec hserved
      obtain ⟨u, b, hstep, hheld, hlog, hunsent, hphase⟩ :=
        (hstalled.inv.given (env (n + Nat.find hserved))).exists_step_txByte ⟨hrst _, hfail⟩ hp hready
      have hnext := hstalled.next [b] hstep hheld hlog hunsent
      rcases hphase with hdone | hmore
      · exact ⟨_, u, hnext, .inl hdone⟩
      · have hcount : t.unsent.length = (b :: u.unsent).length := congrArg List.length hunsent
        exact ih hnext hmore (by rw [List.length_cons] at hcount; omega)

/-- A completed write has sent everything (rule R135). -/
theorem Sending.txLog_of_rxLen0 (h : Sending env s n t) (hp : t.phase = .rxLen0) : t.txLog = s.txLog ++ s.unsent := by
  obtain ⟨sent, hlog, hunsent⟩ := h.progress
  rw [hlog, hunsent, unsent_rxLen0 hp, List.append_nil]

/-- A failing cycle of `TX` halts the block with a proper part sent (rules R200, R203). -/
theorem Sending.exists_halt (h : Sending env s n t) (hp : t.phase = .tx) (hrst : NeverReset env)
    (hfail : (env n).xportFail = true) :
    ∃ u, runUnder env (n + 1) s = .next u ∧ u.rxHeld = s.rxHeld ++ arrivalsUnder env (n + 1) ∧ u.phase = .halt ∧ u.fault = true
      ∧ ∃ k, k < s.unsent.length ∧ u.txLog = s.txLog ++ s.unsent.take k := by
  obtain ⟨sent, hlog, hunsent⟩ := h.progress
  have hleft := h.inv.unsent_pos hp
  have hstep := step_txFail (s := t.given (env n)) h.inv.cfgWf (hrst n) hp hfail
  refine ⟨_, (runUnder_succ h.run).trans hstep, ?_, rfl, rfl, sent.length, ?_, ?_⟩
  · rw [arrivalsUnder_succ, ← List.append_assoc, ← h.rxHeld]
    rfl
  · rw [hunsent, List.length_append]
    omega
  · rw [hunsent, List.take_left]
    exact hlog

end Write

end Sys2Proof.Machine

namespace Sys2Proof.Proofs

open Sys2Proof Sys2Proof.Machine

/-- Settles O20: a delay ends, a fair transport brings the write to its end or to a failing cycle, and stalls change nothing. -/
theorem fairTransportCompletesTheWrite : Obligations.FairTransportCompletesTheWrite := by
  intro s env hs hp hrst
  refine ⟨fun hfair => ?_, fun htx hstall n => ?_⟩
  · have hstart : ∃ n t, Sending env s n t ∧ t.phase = .tx :=
      hp.elim (fun hp => (sending_refl env hs).exists_tx hp hrst) fun hp => ⟨0, s, sending_refl env hs, hp⟩
    obtain ⟨m, t, ht, htx⟩ := hstart
    obtain ⟨n, u, hu, hdone | ⟨hp, hfail⟩⟩ := ht.exists_end htx hrst hfair
    · exact ⟨n, u, hu.run, hu.rxHeld, .inl ⟨hdone, (hu.inv.running (by simp [hdone])).unfailed, hu.txLog_of_rxLen0 hdone⟩,
        fun _ => hdone⟩
    · obtain ⟨v, hrun, hheld, hhalt⟩ := hu.exists_halt hp hrst hfail
      exact ⟨n + 1, v, hrun, hheld, .inr hhalt, fun hnone => absurd hfail (by simp [hnone n])⟩
  · obtain ⟨held, inputs, port, ht⟩ := (sending_refl env hs).exists_stalled htx hrst n fun i _ => hstall _
    rw [Nat.zero_add] at ht
    exact ⟨_, ht.run, htx, rfl, rfl, rfl, ht.rxHeld⟩

/-- Settles O17: the frame is the one `txFrame_of_code` writes out, and well-formedness fits each of its numbers into its bytes. -/
theorem transmittedFrameBytes : Obligations.TransmittedFrameBytes := by
  intro c j hwf hj
  obtain ⟨code, hcode, hlen, hdurations, hrepeat⟩ := code_of_target hwf hj
  refine ⟨code, _, hcode, txFrame_of_code hcode hlen, ?_, ?_⟩
  · simp only [List.length_cons, sampleBytes_length]
    omega
  · simp [sampleBytes_map_toNat hdurations, hrepeat, hi8_toNat (show 2 + 2 * code.length ≤ 65535 by omega)]

/-- Settles O16: the length of a payload that is not refused fits its two bytes. -/
theorem encodeGivesLengthTypePayload : Obligations.EncodeGivesLengthTypePayload := by
  intro type payload
  refine ⟨fun h => ⟨_, _, lo8_toNat _, hi8_toNat (by omega), encodeFrame_ok type payload h, by simp⟩, fun h => ?_⟩
  exact if_neg (Nat.not_le.2 h)

/-- Settles O18: the cycle is `step_txByte`, and 17 bits hold an index into any frame. -/
theorem txByteSendsTheNextByte : Obligations.TxByteSendsTheNextByte := by
  intro s frame h hwf hcalm hp hready hf
  refine ⟨step_txByte hwf hcalm hp hready hf h, BitVec.toNat_add_of_lt ?_⟩
  have := txFrame_length_le hf
  rw [show (1 : BitVec 17).toNat = 1 from rfl]
  omega

end Sys2Proof.Proofs

/-! PROOFS. The Dispatcher (42_dispatcher.md): a dispatch cycle is the meaning of the decoded body (rule R145), the numbers of the byte pairs
that are classified (rules R84, R85), the outcomes of a classification (rules R180 to R183) and the number of an unknown type
(rules R96, R153). -/

namespace Sys2Proof

/-- Sample `q` as a number (rules R84, R85). -/
theorem pairSamples_get_toNat (bytes : List Byte) (q : Nat) (h : 2 * q + 1 < bytes.length) :
    (pairSamples bytes).1[q]?.map (·.toNat) = some (bytes[2 * q].toNat + 256 * bytes[2 * q + 1].toNat) := by
  rw [pairSamples_get bytes q h, Option.map_some, le16_toNat]

/-- The number of a type byte whose fixed bits are zeros and one 1, with `low` below them (rule R96). -/
theorem toNat_one_append {w n : Nat} (hw : 0 < w) (low : BitVec n) : (1#w ++ low).toNat = 2 ^ n + low.toNat := by
  have hone : (1#w).toNat = 1 := by simpa using hw
  rw [BitVec.toNat_append, ← Nat.shiftLeft_add_eq_or_of_lt low.isLt, hone, Nat.one_shiftLeft]

end Sys2Proof

namespace Sys2Proof.Machine

section Dispatcher

variable {s t : State}

/-- The cycle that dispatches a body is the meaning of the instruction in it (rule R145). -/
theorem Dispatches.step_eq_exec {type : Byte} {payload : List Byte} {row : Row} (hs : Dispatches s (type :: payload))
    (hr : rowOf type = some row) : step s = exec (row.instr type payload) s.beginCycle :=
  (step_act hs.cfgWf hs.noReset (chooseStep_dispatch.2 ⟨hs.inDispatch, hs.notBusy⟩)).trans
    (dispatchStep_of_holds (s := s.beginCycle) hs.inDispatch hs.body.beginCycle hr)

/-- Rules R148 and R150: the dispatch of a received signal with no byte left over, or with one that the policy ignores. -/
theorem Dispatches.exists_samples {rep : Byte} {rest : List Byte} (hs : Dispatches s (1 :: rep :: rest))
    (h : rest.length % 2 = 0 ∨ s.cfg.oddPolicy = .ignore) :
    ∃ samples : List Half, samples.length = rest.length / 2
      ∧ (∀ q (h : 2 * q + 1 < rest.length),
          samples[q]?.map (·.toNat) = some (rest[2 * q].toNat + 256 * rest[2 * q + 1].toNat))
      ∧ step s = .next (respond (classify s.cfg samples) rep samples s.beginCycle) :=
  ⟨(pairSamples rest).1, pairSamples_length rest, pairSamples_get_toNat rest,
    (hs.step_eq_exec (row := .received) rfl).trans (execReceived_classifies (s := s.beginCycle) h)⟩

/-- Only a `RECEIVED` can leave another phase than `RX_LEN0` (rule R145). -/
theorem exec_received_or_rxLen0 {i : Instr} (h : exec i s = .next t) : (∃ form, i = .received form) ∨ t.phase = .rxLen0 := by
  cases i with
  | received form => exact .inl ⟨form, rfl⟩
  | message form => cases form <;> (cases h; exact .inr rfl)
  | _ => cases h; exact .inr rfl

/-- A decoded form whose samples are classified: whole samples, or any under the policy that ignores the byte left over
(rules R148, R150). -/
theorem execReceived_of_samples {form : ReceivedForm} {rep : Byte} {samples : List Half}
    (h : form = .whole rep samples ∨ (s.cfg.oddPolicy = .ignore ∧ ∃ trailing, form = .odd rep samples trailing)) :
    execReceived form s = classifyAndRespond rep samples s := by
  rcases h with rfl | ⟨hpolicy, trailing, rfl⟩
  · rfl
  · simp only [execReceived, hpolicy]

theorem execReceived_odd_reject (rep trailing : Byte) (samples : List Half) (hpolicy : s.cfg.oddPolicy = .reject) :
    execReceived (.odd rep samples trailing) s
      = report (.malformed 1 (ReceivedForm.odd rep samples trailing).payload) s := by
  simp only [execReceived, hpolicy]

theorem respond_none (rep : Byte) (samples : List Half) :
    respond none rep samples s = (s.emit (.noMatch rep samples.length samples)).setPhase .rxLen0 := rfl

theorem respond_matched (rep : Byte) (samples : List Half) {k : Nat} (hk : s.cfg.trans k = none) :
    respond (some k) rep samples s = (s.emit (.matched k)).setPhase .rxLen0 := by
  simp only [respond, hk]

theorem respond_translate (rep : Byte) (samples : List Half) {k j : Nat} (hk : s.cfg.trans k = some j) :
    respond (some k) rep samples s = (s.emit (.translate k j)).arm j s.cfg.delayTicks := by
  simp only [respond, hk]

end Dispatcher

end Sys2Proof.Machine

namespace Sys2Proof.Proofs

open Sys2Proof Sys2Proof.Machine

/-- Settles O24: the samples are those `pairSamples` reads. -/
theorem receivedFrameIsClassified : Obligations.ReceivedFrameIsClassified :=
  fun _ _ _ hs heven => hs.exists_samples (.inl heven)

/-- Settles O25: under `REJECT` the row of the malformed frame, under `IGNORE` the whole pairs as in O24. -/
theorem oddReceivedFollowsThePolicy : Obligations.OddReceivedFollowsThePolicy :=
  fun s rep rest hs hodd =>
    ⟨fun hreject => hs.step_of_transition
        (.receivedOdd (s := s.beginCycle) rep rest hs.inDispatch hs.body.beginCycle hodd hreject),
      fun hignore => hs.exists_samples (.inr hignore)⟩

/-- Settles O27: the cycle is the row of the unknown types. -/
theorem unknownTypeIsReported : Obligations.UnknownTypeIsReported :=
  fun s type payload htype hs => hs.step_of_transition
    (.unknown (s := s.beginCycle) type payload hs.inDispatch hs.body.beginCycle htype)

/-- Settles O32: each of the three things a meaning can do keeps all but the phase, the event log and its port, and the registers a
translation arms; only a `RECEIVED` leaves `DELAY`. -/
theorem dispatchFrame : Obligations.DispatchFrame := by
  intro i s t h
  have hrow := exec_received_or_rxLen0 h
  rcases exec_cases i s with he | ⟨e, -, he⟩ | ⟨k, j, hk, he⟩
  all_goals
    obtain rfl := Host.Outcome.next.inj (h.symm.trans he)
    refine ⟨rfl, rfl, rfl, rfl, rfl, rfl, rfl, rfl, rfl, fun _ => rfl, ?_⟩
  · exact ⟨⟨[], by simp⟩, .inl ⟨rfl, rfl, rfl⟩⟩
  · exact ⟨⟨[e], rfl, Nat.le_refl 1⟩, .inl ⟨rfl, rfl, rfl⟩⟩
  · obtain ⟨form, rfl⟩ := hrow.resolve_right (by simp)
    exact ⟨⟨[.translate k j], rfl, Nat.le_refl 1⟩, .inr ⟨form, k, rfl, rfl, hk, rfl, rfl⟩⟩

/-- Settles O33: every type byte has a row, and a meaning always answers a next state, in one of three ways. -/
theorem noFrameContentStopsTheLoop : Obligations.NoFrameContentStopsTheLoop := by
  intro s bytes hs hne
  obtain ⟨type, payload, rfl⟩ := List.exists_cons_of_ne_nil hne
  obtain ⟨row, hr⟩ := Option.isSome_iff_exists.1 (rowOf_isSome type)
  have hstep := hs.step_eq_exec hr
  rcases exec_cases (row.instr type payload) s.beginCycle with he | ⟨e, -, he⟩ | ⟨k, j, -, he⟩
  · exact ⟨_, hstep.trans he, .inl rfl, rfl⟩
  · exact ⟨_, hstep.trans he, .inl rfl, rfl⟩
  · exact ⟨_, hstep.trans he, .inr rfl, rfl⟩

/-- Settles O22: the cycle is the row of the full `MESSAGE`. -/
theorem messageFrameIsReported : Obligations.MessageFrameIsReported :=
  fun s subtype code extra hs => hs.step_of_transition
    (.message (s := s.beginCycle) subtype code extra hs.inDispatch hs.body.beginCycle)

/-- Settles O23: the cycle is the row of the short `MESSAGE`, or that of the empty `RECEIVED`. -/
theorem tooShortPayloadIsMalformed : Obligations.TooShortPayloadIsMalformed :=
  ⟨fun s payload hs hshort => hs.step_of_transition
      (.messageShort (s := s.beginCycle) payload hs.inDispatch hs.body.beginCycle hshort),
    fun s hs => hs.step_of_transition (.receivedEmpty (s := s.beginCycle) hs.inDispatch hs.body.beginCycle)⟩

/-- Settles O26: the cycle is the row of the request, or that of the response. -/
theorem requestAndResponseFramesAreIgnored : Obligations.RequestAndResponseFramesAreIgnored := by
  rintro s payload (hs | hs)
  · exact hs.step_of_transition (.sendRequest (s := s.beginCycle) payload hs.inDispatch hs.body.beginCycle)
  · exact hs.step_of_transition (.sendResponse (s := s.beginCycle) payload hs.inDispatch hs.body.beginCycle)

/-- Settles O28: `exec` of either form computes to its report. -/
theorem messageCompletes : Obligations.MessageCompletes :=
  fun _ => ⟨fun _ _ _ => rfl, fun _ => rfl⟩

/-- Settles O29: the empty form, the odd form that is rejected, and the three outcomes of the forms that are classified. -/
theorem receivedCompletes : Obligations.ReceivedCompletes := by
  intro s
  refine ⟨rfl, fun rep trailing samples hreject => ⟨_, rfl, execReceived_odd_reject rep trailing samples hreject⟩,
    fun rep samples form hform => ?_⟩
  have hexec : ∀ {result t}, classify s.cfg samples = result → respond result rep samples s = t →
      exec (.received form) s = .next t := by
    rintro _ _ rfl rfl
    exact execReceived_of_samples hform
  exact ⟨fun hnone => hexec hnone (respond_none rep samples),
    fun k hmatch hk => hexec hmatch (respond_matched rep samples hk),
    fun k j hmatch hk => hexec hmatch (respond_translate rep samples hk)⟩

/-- Settles O30. -/
theorem noOpFramesComplete : Obligations.NoOpFramesComplete :=
  fun _ _ => ⟨rfl, rfl⟩

/-- Settles O31: each row reports the type byte that is its fixed bits and then `low`. -/
theorem unknownFramesComplete : Obligations.UnknownFramesComplete := by
  intro s payload i number h
  rcases h with ⟨low, rfl, rfl⟩ | ⟨low, rfl, rfl⟩ | ⟨low, rfl, rfl⟩ | ⟨low, rfl, rfl⟩ | ⟨low, rfl, rfl⟩ | ⟨low, rfl, rfl⟩
  all_goals exact ⟨_, toNat_one_append (by decide) low, rfl⟩

end Sys2Proof.Proofs

/-! PROOFS. The Classifier (43_classifier.md): a match is the position-wise relation `Forall₂` of the deviations (rule R166), and the
search through the table is `findIdx?` on its references (rule R165). -/

namespace Sys2Proof

/-- The tolerance of a well-formed configuration is the number of rule R9(e). -/
theorem Cfg.tolerance_of_wf {c : Cfg} (hwf : c.wf = true) : c.tolerance = 100 := by
  obtain ⟨-, -, -, hconstants⟩ := Cfg.wf_iff.1 hwf
  exact (Cfg.constantsFixed_iff.1 hconstants).1

end Sys2Proof

namespace Sys2Proof.Machine

/-- `absdiff` of rule R12 is the distance of the two numbers on the integers (rule R168). -/
theorem absdiff_eq_natAbs (a b : Nat) : absdiff a b = ((a : Int) - (b : Int)).natAbs := by
  simp only [absdiff]
  split <;> omega

/-- A reference matches when every deviation is within the tolerance, position by position (rule R166). -/
theorem matchesRef_iff_forall₂ (tolerance : Nat) (reference : List Nat) (samples : List Half) :
    matchesRef tolerance reference samples = true ↔
      List.Forall₂ (fun v x => absdiff v x.toNat ≤ tolerance) reference samples := by
  induction reference generalizing samples with
  | nil => cases samples <;> simp [matchesRef]
  | cons v reference ih => cases samples <;> simp [matchesRef, ih]

/-- `Match` at an index of the table is that of its reference. -/
theorem isMatch_of_lt {c : Cfg} {k : Nat} (h : k < c.table.length) (samples : List Half) :
    isMatch c k samples = matchesRef c.tolerance c.table[k].reference samples := by
  simp only [isMatch, Cfg.code, List.getElem?_eq_getElem h, Option.map_some]

/-- An index matches when it is one of the table and its reference does (rule R166). -/
theorem isMatch_iff (c : Cfg) (k : Nat) (samples : List Half) :
    isMatch c k samples = true ↔
      ∃ code, c.code k = some code ∧ List.Forall₂ (fun v x => absdiff v x.toNat ≤ c.tolerance) code samples := by
  cases hc : c.code k with
  | none => simp [isMatch, hc]
  | some code => simp [isMatch, hc, matchesRef_iff_forall₂]

/-- The empty input matches exactly the empty references (rule R170). -/
theorem isMatch_nil (c : Cfg) (k : Nat) : isMatch c k [] = true ↔ c.code k = some [] := by
  simp only [isMatch_iff, List.forall₂_nil_right_iff, exists_eq_right]

/-- The search from `k` on is the library's search, its answer moved up by `k`. -/
theorem firstMatch_eq_findIdx? (tolerance : Nat) (samples : List Half) (k : Nat) (table : List TableEntry) :
    firstMatch tolerance samples k table =
      (table.findIdx? fun e => matchesRef tolerance e.reference samples).map (k + ·) := by
  induction table generalizing k with
  | nil => rfl
  | cons e rest ih =>
    simp only [firstMatch, List.findIdx?_cons, ih]
    split
    · rfl
    · simp only [Option.map_map, Function.comp_def, Nat.add_assoc, Nat.add_comm 1]

/-- `Classify` is the first reference of the table that matches (rules R165, R167). -/
theorem classify_eq_findIdx? (c : Cfg) (samples : List Half) :
    classify c samples = (c.table.map (·.reference)).findIdx? (matchesRef c.tolerance · samples) := by
  simp only [classify, firstMatch_eq_findIdx?, Nat.zero_add, Option.map_id_fun', id_eq, List.findIdx?_map, Function.comp_def]

/-- `Classify` answers the least index that matches (rule R165). -/
theorem classify_eq_some_iff (c : Cfg) (samples : List Half) (k : Nat) :
    classify c samples = some k ↔
      k < c.size ∧ isMatch c k samples = true ∧ ∀ j, j < k → isMatch c j samples = false := by
  rw [classify_eq_findIdx?, List.findIdx?_eq_some_iff_getElem, ← exists_prop]
  simp only [List.length_map, List.getElem_map, Bool.not_eq_true]
  refine exists_congr fun hk => ?_
  rw [isMatch_of_lt hk]
  exact and_congr_right fun _ => forall₂_congr fun j hj => by rw [isMatch_of_lt (hj.trans hk)]

/-- `Classify` answers `NO_MATCH` when no index matches (rule R165). -/
theorem classify_eq_none_iff (c : Cfg) (samples : List Half) :
    classify c samples = none ↔ ∀ k, k < c.size → isMatch c k samples = false := by
  rw [classify_eq_findIdx?, List.findIdx?_eq_none_iff, List.forall_mem_iff_forall_getElem]
  simp only [List.length_map, List.getElem_map]
  exact forall₂_congr fun k hk => by rw [isMatch_of_lt hk]

end Sys2Proof.Machine

namespace Sys2Proof.Proofs

open Sys2Proof Sys2Proof.Machine

/-- Settles O34: the search reads the tolerance and the references, and stops at the first that matches. -/
theorem classifyReturnsTheLeastMatch : Obligations.ClassifyReturnsTheLeastMatch :=
  fun c samples => ⟨classify_eq_some_iff c samples, classify_eq_none_iff c samples, fun d htolerance hreferences => by
    rw [classify_eq_findIdx? d, classify_eq_findIdx? c, htolerance, hreferences]⟩

/-- Settles O35: `Forall₂` is equal length and the relation at every position. -/
theorem matchIsLengthAndTolerance : Obligations.MatchIsLengthAndTolerance := by
  intro c k samples hwf
  simp only [isMatch_iff, List.forall₂_iff_get, Cfg.tolerance_of_wf hwf, absdiff_eq_natAbs, List.get_eq_getElem]

/-- Settles O36: lists that are related position by position have one length, and only the empty list is related to the empty one. -/
theorem differentLengthNeverMatches : Obligations.DifferentLengthNeverMatches := by
  intro c
  refine ⟨fun k code samples hcode hlength => ?_, isMatch_nil c, fun hnonempty => ?_⟩
  · refine Bool.eq_false_iff.2 fun hmatch => ?_
    obtain ⟨code', hcode', hrelated⟩ := (isMatch_iff c k samples).1 hmatch
    obtain rfl : code = code' := Option.some.inj (hcode.symm.trans hcode')
    exact hlength hrelated.length_eq
  · refine (classify_eq_none_iff c []).2 fun k _ => Bool.eq_false_iff.2 fun hmatch => ?_
    exact hnonempty k [] ((isMatch_nil c k).1 hmatch) rfl

end Sys2Proof.Proofs

/-! PROOFS. The Responder (44_responder.md): a whole received signal is classified and answered (rules R148, R180 to R183), and the byte
offered in `TX` is one of `TXFRAME(tx_target)` (rules R55, R185). -/

namespace Sys2Proof.Machine

section Responder

variable {s : State}

/-- The dispatch of whole samples is the response to their classification (rule R148). -/
theorem Dispatches.step_respond {rep : Byte} {samples : List Half}
    (hs : Dispatches s (1 :: rep :: sampleBytes (samples.map (·.toNat)))) :
    step s = .next (respond (classify s.cfg samples) rep samples s.beginCycle) := by
  have hpairs : pairSamples (sampleBytes (samples.map (·.toNat))) = (samples, none) := by
    simpa using pairSamples_sampleBytes samples none
  have hexec := execReceived_classifies (s := s.beginCycle) (rep := rep) (rest := sampleBytes (samples.map (·.toNat)))
    (.inl (by simp))
  rw [hpairs] at hexec
  exact (hs.step_eq_exec (row := .received) rfl).trans hexec

/-- The byte offered in `TX`, by the bytes of the frame (rules R50, R55). -/
theorem txData_tx (hp : s.phase = .tx) : s.txData = (txBytes s.cfg s.txTarget)[s.txIdx.toNat]? := by
  simp only [State.txData, State.txValid, txBytes, hp, if_true]
  cases txFrame s.cfg s.txTarget <;> rfl

end Responder

end Sys2Proof.Machine

namespace Sys2Proof.Proofs

open Sys2Proof Sys2Proof.Machine

/-- Settles O37: the response to `NO_MATCH`. -/
theorem noMatchIsReported : Obligations.NoMatchIsReported := by
  intro s rep samples hs hnone
  rw [hs.step_respond, hnone, respond_none]
  rfl

/-- Settles O38: the response to an index that `TRANS` does not have. -/
theorem matchWithoutTranslationIsReported : Obligations.MatchWithoutTranslationIsReported := by
  intro s rep samples k hs hmatch hk
  refine ⟨?_, rfl⟩
  rw [hs.step_respond, hmatch, respond_matched (s := s.beginCycle) rep samples hk]
  rfl

/-- Settles O39: the cycle is `Dispatches.step_translate`. -/
theorem translationArmsTheRetransmission : Obligations.TranslationArmsTheRetransmission :=
  fun _ _ _ _ _ hs hmatch hk => hs.step_translate hmatch hk

/-- Settles O41: the cycle is `step_delayDone`, and the byte it leaves on offer is the one at index 0. -/
theorem delayDoneStartsTheTransmission : Obligations.DelayDoneStartsTheTransmission :=
  fun s hwf hrst hp hd => ⟨_, step_delayDone hwf hrst hp hd, rfl, txData_tx (s := s.beginCycle.startTx) rfl⟩

end Sys2Proof.Proofs

/-! PROOFS. The exceptions (60_exceptions.md): the cycle in which the transport fails (rule R200), the halted block (rule R201), and the
priority among the inputs of one cycle (rule R210). -/

namespace Sys2Proof.Machine

section Exceptions

variable {s : State} {c : CycleInput}

/-- A failure is taken whenever a phase samples it, whatever else the cycle brings (rules R24, R210). -/
theorem chooseStep_fail_iff :
    chooseStep c s = .act .fail ↔
      c.xportFail = true ∧ (s.phase = .rxLen0 ∨ s.phase = .rxLen1 ∨ s.phase = .rxBody ∨ s.phase = .tx) := by
  constructor
  · exact chooseStep_fail
  · rintro ⟨hfail, hp | hp | hp | hp⟩
    · exact (chooseStep_receiving (.inl hp)).trans (chooseRx_fail hfail)
    · exact (chooseStep_receiving (.inr (.inl hp))).trans (chooseRx_fail hfail)
    · exact (chooseStep_receiving (.inr (.inr hp))).trans (chooseRx_fail hfail)
    · simp [chooseStep, hp, hfail]

/-- A cycle of a phase that samples a failure, with one (rules R51, R210). -/
theorem step_fail (hwf : s.cfg.wf = true) (hrst : s.cycleInput.rst = false) (hfail : s.cycleInput.xportFail = true)
    (hp : s.phase = .rxLen0 ∨ s.phase = .rxLen1 ∨ s.phase = .rxBody ∨ s.phase = .tx) :
    step s = perform .fail s.beginCycle :=
  step_act hwf hrst (chooseStep_fail_iff.2 ⟨hfail, hp⟩)

/-- A cycle of an RX phase that brings nothing (rule R51). -/
theorem step_rxIdle (hwf : s.cfg.wf = true) (hcalm : Calm s) (hp : Receiving s) (hn : OffersNone s)
    (ht : s.cycleInput.rxTimeout = false) : step s = .next s.beginCycle :=
  step_idle hwf hcalm.1 ((chooseStep_receiving (s := s.beginCycle) hp).trans (chooseRx_idle hcalm.2 hn ht))

/-- Rule R201: no step is enabled in `HALT`. -/
theorem enabled_halt (a : Action) (hp : s.phase = .halt) : enabled a s = false :=
  Bool.eq_false_iff.2 fun h => by simp [enabled_iff, Receiving, hp] at h

end Exceptions

end Sys2Proof.Machine

namespace Sys2Proof.Proofs

open Sys2Proof Sys2Proof.Machine

/-- Settles O44: a step that is not enabled has no effect, a cycle selects none, and the invariant gives the port and the flag of a
halted state that a run reaches. -/
theorem haltedBlockDoesNothing : Obligations.HaltedBlockDoesNothing := by
  intro s hp
  have hidle : chooseStep s.cycleInput s.beginCycle = .idle := by simp [chooseStep, hp]
  refine ⟨fun a => ?_, fun hwf hrst => step_idle hwf hrst hidle, ?_, ?_, ?_, fun hreached => ⟨?_, ?_⟩⟩
  · exact ⟨enabled_halt a hp, perform_of_not_enabled (enabled_halt a hp)⟩
  · simp [State.rxReady, hp]
  · simp [State.txValid, hp]
  · simp [State.verdict, hp]
  · simp [State.evValid, hreached.inv.haltQuiet hp]
  · exact hreached.inv.halted.2 hp

/-- Settles O43: the cycle takes the step `Fail`, and in each of the four phases that is one row of the transition table. -/
theorem transportFailureHalts : Obligations.TransportFailureHalts :=
  fun s hwf hrst hfail hp => (step_fail hwf hrst hfail hp).trans (perform_of_transition (.fail (s := s.beginCycle) hp))

/-- Settles O46: the three answers of an RX phase by the input that wins, and the two of `TX`. -/
theorem failureThenByteThenTimeout : Obligations.FailureThenByteThenTimeout := by
  intro s hwf hrst
  refine ⟨fun hp => ⟨fun hfail => ?_, fun hcalm b rest ho => ?_, fun hcalm hn => ⟨fun ht => ?_, fun ht => ?_⟩⟩,
    fun hp => ⟨fun hfail => ?_, fun hcalm hready => ?_⟩⟩
  · exact step_fail hwf hrst hfail (by tauto)
  · exact step_rxByte hwf ⟨hrst, hcalm⟩ hp ho
  · exact step_act hwf hrst (chooseStep_timeout hp hcalm hn ht)
  · exact step_rxIdle hwf ⟨hrst, hcalm⟩ hp hn ht
  · exact step_fail hwf hrst hfail (.inr (.inr (.inr hp)))
  · exact step_act hwf hrst (by simp [chooseStep, hp, hcalm, hready])

end Sys2Proof.Proofs

/-! PROOFS. Reset and hazards (70_reset_and_hazards.md): the cycle with `rst = 1` (rule R230), and the short read that re-aligns a receiver
which has lost its place (rule R244). -/

namespace Sys2Proof.Machine

section ResetAndHazards

variable {s : State}

/-- Rule R230: a cycle with `rst = 1`, whatever else it brings. -/
theorem step_reset (hwf : s.cfg.wf = true) (hrst : s.cycleInput.rst = true) : step s = .next s.beginCycle.resetBlock := by
  simp [step, hwf, choose, hrst]

/-- A short read in any RX phase, and then a whole frame (rules R120, R244). -/
theorem runActions_timeout_frame {type : Byte} {payload frame : List Byte} (hp : Receiving s)
    (h : encodeFrame type payload = .ok frame) (hfit : 1 + payload.length ≤ s.cfg.bodyMax) :
    ∃ t, runActions (.rxTimeout :: deliver frame) s = .next t
      ∧ t.phase = .dispatch ∧ BodyHolds t (type :: payload) ∧ Silent s t := by
  have hrun : runActions [.rxTimeout] s = .next { s with phase := .rxLen0 } := congrArg _ (rxTimeout_receiving hp)
  obtain ⟨hdispatch, hholds⟩ := receive_frame (s := { s with phase := .rxLen0 }) rfl h hfit
  exact ⟨_, (runActions_next hrun).trans (runActions_deliver frame _), hdispatch, hholds, { silent_receive frame with }⟩

end ResetAndHazards

end Sys2Proof.Machine

namespace Sys2Proof.Proofs

open Sys2Proof Sys2Proof.Machine

/-- Settles O14: the short read leaves the block in `RX_LEN0`, from where `receive_frame` reads the frame. -/
theorem silenceRealignsTheReceiver : Obligations.SilenceRealignsTheReceiver := by
  refine fun s hp => ⟨congrArg _ (rxTimeout_receiving hp), fun type payload frame hencode hfit => ?_⟩
  obtain ⟨t, hrun, hdispatch, hholds, hsilent⟩ := runActions_timeout_frame hp hencode hfit
  exact ⟨t, hrun, hdispatch, hholds.packet, hsilent.evLog, hsilent.txLog⟩

/-- Settles O2: the cycle is `step_reset`, and a halted block without a reset stays as it is (rule R201). -/
theorem resetCycleRestoresTheResetState : Obligations.ResetCycleRestoresTheResetState := by
  refine ⟨fun s hwf hrst => step_reset hwf hrst, fun s t h hp hleft => ?_⟩
  obtain ⟨-, hstays, -⟩ := haltedBlockDoesNothing s hp
  by_contra hrst
  have hnext : step s = .next s.beginCycle := hstays (step_next h).1 (Bool.eq_false_iff.2 hrst)
  obtain rfl : s.beginCycle = t := Host.Outcome.next.inj (hnext.symm.trans h)
  exact hleft hp

end Sys2Proof.Proofs

/-! PROOFS. The examples of the dispatch rules (rules R146 to R153): each is the frame of its instruction, so it decodes to it. -/

namespace Sys2Proof

/-- The frame of an instruction, with nothing behind it, decodes to that instruction (rules R80, R130). -/
theorem decodeFrame_of_encode {i : Instr} {frame : List Byte} (h : encode i = .ok frame) :
    decodeFrame frame = .ok (i, []) := by
  rw [← frame.append_nil, decodeFrame_of_encodeFrame h i.rowOf_typeByte [], i.row_instr]

end Sys2Proof

namespace Sys2Proof.Proofs

open Sys2Proof Sys2Proof.Machine

/-- Settles O56: the encoder answers the very bytes of each example, so the decoder gives the instruction back. -/
theorem specExamplesDecode : Obligations.SpecExamplesDecode := by
  have message : encode (.message (.full 1 2 [0x68, 0x69])) = .ok [0x05, 0x00, 0x00, 0x01, 0x02, 0x68, 0x69] := rfl
  have received : encode (.received (.whole 9 [2450, 650, 1150, 600]))
      = .ok [0x0A, 0x00, 0x01, 0x09, 0x92, 0x09, 0x8A, 0x02, 0x7E, 0x04, 0x58, 0x02] := rfl
  have sendRequest : encode (.sendRequest [0x14, 0x10, 0x27]) = .ok [0x04, 0x00, 0x02, 0x14, 0x10, 0x27] := rfl
  have sendResponse : encode (.sendResponse []) = .ok [0x01, 0x00, 0x03] := rfl
  have unknown80 : encode (.unknown80 127 [0xDE, 0xAD]) = .ok [0x03, 0x00, 0xFF, 0xDE, 0xAD] := rfl
  exact ⟨decodeFrame_of_encode message, decodeFrame_of_encode received, decodeFrame_of_encode sendRequest,
    decodeFrame_of_encode sendResponse, decodeFrame_of_encode unknown80⟩

end Sys2Proof.Proofs
